-- ==== Sys2Proof/Word.lean ====
section
/-! DEFINITION. The word types of the engine (spec 00_scope.md R5, R7, R8): 16-bit words and addresses, bytes of the
console and of the image, register numbers and condition-code values of three bits. Arithmetic on them is that of
`BitVec`: addition is modulo 65536, `&&&` and `~~~` are bitwise (R8). -/

namespace Sys2Proof

/-- A register value, a memory cell or an address: an unsigned integer in 0 to 65535 (R8). -/
abbrev Word := BitVec 16

/-- A byte of the console streams (R32, R33) or of the image (R172). -/
abbrev Byte := BitVec 8

/-- A register number, a 3-bit field of the instruction word; every value selects a register (R21). -/
abbrev RegNum := BitVec 3

/-- A value of CC, or the mask field of BR: bit 2 is N, bit 1 is Z, bit 0 is P (R23). -/
abbrev CondBits := BitVec 3

end Sys2Proof
end

