-- ==== Sys2Proof/Config.lean ====
section
/-! DEFINITION. The parameters of a run (spec 00_scope.md R6, 10_state.md R36) and the values this model names where the
spec states none. -/

namespace Sys2Proof

/-- `PC_ZERO_POLICY` (R6, 70_reset_and_hazards.md R183). -/
inductive PcZeroPolicy where
  /-- 0x0000 is an ordinary address. -/
  | ordinary
  /-- A run whose PC becomes 0x0000 is refused: neither continued nor treated as halted. -/
  | refuse
deriving DecidableEq, Repr

/-- The parameters that are fixed before the first step and never changed by the engine (R36). `RESERVED_OP_EFFECT` has
no field: its one setting is that the model refuses the run (30_encoding.md R72; log 8). -/
structure Config where
  /-- `ORIGIN`: where the host stores the first word of the image (R6). -/
  origin : Word
  /-- `EOF_SENTINEL`: what `TRAP 0x20` writes to R0 at the end of input (43_trap.md R133). -/
  eofSentinel : Word
  /-- `PC_ZERO_POLICY` (R183). -/
  pcZeroPolicy : PcZeroPolicy
deriving DecidableEq, Repr

/-- `ENTRY`, equal to `ORIGIN` (R6, R171). -/
def Config.entry (c : Config) : Word := c.origin

/-- The spec's own values: `ORIGIN` 0x3000 (D13; PRESUMED by the spec, log 5), `EOF_SENTINEL` 0xFFFF (D11),
`PC_ZERO_POLICY` ordinary (D6). -/
def Config.standard : Config := ⟨0x3000, 0xFFFF, .ordinary⟩

/-- What a memory cell that nothing lists reads as. DESIGN CHOICE, unsafe (log 3): the spec leaves `MEM_INIT` free. -/
def memFill : Word := 0x0000

/-- The value of each register in `State.reset`. DESIGN CHOICE, unsafe (log 1): the spec leaves `REG_RESET` free. -/
def regFill : Word := 0x0000

/-- The value of CC in `State.reset`. DESIGN CHOICE, unsafe (log 2): the spec leaves `CC_RESET` free. -/
def ccFill : CondBits := 0b000

end Sys2Proof
end

