-- ==== Sys2Proof/Syntax.lean ====
section
/-! DEFINITION. The instructions: one constructor for each row of spec/opcode_table.json, in the table's order. The
arguments are the fields of the row, as bit fields of the width the spec gives them (30_encoding.md R62, R63); a bit
that no rule reads (R64) is no argument. -/

namespace Sys2Proof

/-- An instruction word's meaning-bearing content (R63). `x`, `y`, `r` are the register fields, or for BR `x` is the mask
over N, Z, P; `off9`, `off6` and `imm5` are the raw signed fields; `vect8` is the service number. -/
inductive Instr where
  | br (x : CondBits) (off9 : BitVec 9)
  | addReg (x y r : RegNum)
  | addImm (x y : RegNum) (imm5 : BitVec 5)
  | ld (x : RegNum) (off9 : BitVec 9)
  | st (x : RegNum) (off9 : BitVec 9)
  | jsr (off9 : BitVec 9)
  | andReg (x y r : RegNum)
  | andImm (x y : RegNum) (imm5 : BitVec 5)
  | ldr (x y : RegNum) (off6 : BitVec 6)
  | str (x y : RegNum) (off6 : BitVec 6)
  | reserved8
  | not (x y : RegNum)
  | ldi (x : RegNum) (off9 : BitVec 9)
  | sti (x : RegNum) (off9 : BitVec 9)
  | jmp (y : RegNum)
  | reserved13
  | lea (x : RegNum) (off9 : BitVec 9)
  | trap (vect8 : BitVec 8)
deriving DecidableEq, Repr

/-- The five aliases of R77: spellings of core instructions. -/
abbrev Instr.nop : Instr := .br 0 0
/-- `RET` (R77). -/
abbrev Instr.ret : Instr := .jmp 7
/-- `GETC` (R77). -/
abbrev Instr.getc : Instr := .trap 0x20
/-- `OUT` (R77). -/
abbrev Instr.out : Instr := .trap 0x21
/-- `HALT` (R77). -/
abbrev Instr.halt : Instr := .trap 0x25

end Sys2Proof
end

