-- ==== Sys2Proof/WellFormed.lean ====
section
/-! DEFINITION. Which terms of `Instr` are defined instructions. Every value of every field is legal (spec
30_encoding.md R73, R64; 10_state.md R21), and the fields' types admit no other; the one check left is that the opcode
is not reserved (R72). -/

namespace Sys2Proof

/-- A defined instruction of the engine: any but the two reserved opcode values (R72, R73). -/
def Instr.wellFormed : Instr → Bool
  | .br _ _ => true
  | .addReg _ _ _ => true
  | .addImm _ _ _ => true
  | .ld _ _ => true
  | .st _ _ => true
  | .jsr _ => true
  | .andReg _ _ _ => true
  | .andImm _ _ _ => true
  | .ldr _ _ _ => true
  | .str _ _ _ => true
  | .reserved8 => false
  | .not _ _ => true
  | .ldi _ _ => true
  | .sti _ _ => true
  | .jmp _ => true
  | .reserved13 => false
  | .lea _ _ => true
  | .trap _ => true

end Sys2Proof
end

