-- ==== Sys2Proof/Decode.lean ====
section
/-! DEFINITION. Decoding of an instruction word (spec 30_encoding.md R60 to R74), the reading of a word from bytes, and
the encoder (R63, R76, canonical spelling R65). -/

namespace Sys2Proof

/-! ## The fields of an instruction word (R62) -/

/-- `opc = ir[15:12]` (R61). -/
def opcField (w : Word) : BitVec 4 := w.extractLsb' 12 4
/-- `x = ir[11:9]`. -/
def xField (w : Word) : BitVec 3 := w.extractLsb' 9 3
/-- `y = ir[8:6]`. -/
def yField (w : Word) : RegNum := w.extractLsb' 6 3
/-- The second source register `ir[2:0]` (`z & 7`). -/
def rField (w : Word) : RegNum := w.extractLsb' 0 3
/-- The mode bit `ir[5]`: true selects the immediate form of ADD and AND. -/
def modeBit (w : Word) : Bool := w.getLsbD 5
/-- The field `ir[4:0]` of `imm5`. -/
def imm5Field (w : Word) : BitVec 5 := w.extractLsb' 0 5
/-- The field `ir[5:0]` of `off6`. -/
def off6Field (w : Word) : BitVec 6 := w.extractLsb' 0 6
/-- The field `ir[8:0]` of `off9`. -/
def off9Field (w : Word) : BitVec 9 := w.extractLsb' 0 9
/-- `vect8 = ir[7:0]` (R69). -/
def vect8Field (w : Word) : BitVec 8 := w.extractLsb' 0 8

/-! ## Decode -/

/-- The opcode map (R70), read by the four bits of `opc`, bit 15 first: a pure function of the word. The reserved opcode
values have constructors of their own (R72), so that no reserved word decodes to a neighbour. -/
def decodeWord (w : Word) : Instr :=
  match w.getLsbD 15, w.getLsbD 14, w.getLsbD 13, w.getLsbD 12 with
  | false, false, false, false => .br (xField w) (off9Field w)
  | false, false, false, true => if modeBit w then .addImm (xField w) (yField w) (imm5Field w) else .addReg (xField w) (yField w) (rField w)
  | false, false, true , false => .ld (xField w) (off9Field w)
  | false, false, true , true => .st (xField w) (off9Field w)
  | false, true , false, false => .jsr (off9Field w)
  | false, true , false, true => if modeBit w then .andImm (xField w) (yField w) (imm5Field w) else .andReg (xField w) (yField w) (rField w)
  | false, true , true , false => .ldr (xField w) (yField w) (off6Field w)
  | false, true , true , true => .str (xField w) (yField w) (off6Field w)
  | true , false, false, false => .reserved8
  | true , false, false, true => .not (xField w) (yField w)
  | true , false, true , false => .ldi (xField w) (off9Field w)
  | true , false, true , true => .sti (xField w) (off9Field w)
  | true , true , false, false => .jmp (yField w)
  | true , true , false, true => .reserved13
  | true , true , true , false => .lea (xField w) (off9Field w)
  | true , true , true , true => .trap (vect8Field w)

/-- Why a byte sequence holds no instruction word. -/
inductive DecodeError where
  /-- There is no byte. -/
  | noByte
  /-- One byte only: "two bytes unavailable" (70_reset_and_hazards.md R172, R173). -/
  | halfWord
deriving DecidableEq, Repr

/-- A 16-bit word of the big-endian byte stream: the first byte is bits 15 to 8 (R44, R172). -/
def wordOfBytes (hi lo : Byte) : Word := hi ++ lo

/-- The instruction at the head of a byte stream laid out as the image is, with the bytes after it. Every pair of bytes
decodes; fewer than two bytes are rejected by name. -/
def decodeBytes : List Byte → Except DecodeError (Instr × List Byte)
  | [] => .error .noByte
  | [_] => .error .halfWord
  | hi :: lo :: rest => .ok (decodeWord (wordOfBytes hi lo), rest)

/-! ## Encode -/

/-- The opcode number of each instruction (R70, R71). -/
def Instr.opcode : Instr → BitVec 4
  | .br _ _ => 0
  | .addReg _ _ _ => 1
  | .addImm _ _ _ => 1
  | .ld _ _ => 2
  | .st _ _ => 3
  | .jsr _ => 4
  | .andReg _ _ _ => 5
  | .andImm _ _ _ => 5
  | .ldr _ _ _ => 6
  | .str _ _ _ => 7
  | .reserved8 => 8
  | .not _ _ => 9
  | .ldi _ _ => 10
  | .sti _ _ => 11
  | .jmp _ => 12
  | .reserved13 => 13
  | .lea _ _ => 14
  | .trap _ => 15

/-- The bits of an instruction's word that no rule reads (R64): the `-` positions of its pattern in R63. -/
def Instr.ignoredBits : Instr → Word
  | .br _ _ => 0x0000
  | .addReg _ _ _ => 0x0018
  | .addImm _ _ _ => 0x0000
  | .ld _ _ => 0x0000
  | .st _ _ => 0x0000
  | .jsr _ => 0x0E00
  | .andReg _ _ _ => 0x0018
  | .andImm _ _ _ => 0x0000
  | .ldr _ _ _ => 0x0000
  | .str _ _ _ => 0x0000
  | .reserved8 => 0x0FFF
  | .not _ _ => 0x003F
  | .ldi _ _ => 0x0000
  | .sti _ _ => 0x0000
  | .jmp _ => 0x0E3F
  | .reserved13 => 0x0FFF
  | .lea _ _ => 0x0000
  | .trap _ => 0x0F00

/-- A field placed with its lowest bit at bit `lo` of the word: the `<<` of R76. -/
def place {n : Nat} (f : BitVec n) (lo : Nat) : Word := f.setWidth 16 <<< lo

/-- The canonical word of an instruction: the formula of R76, field by field at the places of R62, with every ignored bit
0 (R65). -/
def encode : Instr → Word
  | .br x off9 => 0x0000 ||| place x 9 ||| place off9 0
  | .addReg x y r => 0x1000 ||| place x 9 ||| place y 6 ||| place r 0
  | .addImm x y imm5 => 0x1020 ||| place x 9 ||| place y 6 ||| place imm5 0
  | .ld x off9 => 0x2000 ||| place x 9 ||| place off9 0
  | .st x off9 => 0x3000 ||| place x 9 ||| place off9 0
  | .jsr off9 => 0x4000 ||| place off9 0
  | .andReg x y r => 0x5000 ||| place x 9 ||| place y 6 ||| place r 0
  | .andImm x y imm5 => 0x5020 ||| place x 9 ||| place y 6 ||| place imm5 0
  | .ldr x y off6 => 0x6000 ||| place x 9 ||| place y 6 ||| place off6 0
  | .str x y off6 => 0x7000 ||| place x 9 ||| place y 6 ||| place off6 0
  | .reserved8 => 0x8000
  | .not x y => 0x9000 ||| place x 9 ||| place y 6
  | .ldi x off9 => 0xA000 ||| place x 9 ||| place off9 0
  | .sti x off9 => 0xB000 ||| place x 9 ||| place off9 0
  | .jmp y => 0xC000 ||| place y 6
  | .reserved13 => 0xD000
  | .lea x off9 => 0xE000 ||| place x 9 ||| place off9 0
  | .trap vect8 => 0xF000 ||| place vect8 0

/-- The canonical word as the two bytes of the image, high byte first (R172). -/
def encodeBytes (i : Instr) : List Byte :=
  [(encode i).extractLsb' 8 8, (encode i).extractLsb' 0 8]

/-- The offset field of a PC-relative instruction at address `a` that refers to address `t`: `(t - (a + 1)) mod 2^9`
(R78), masked without a range check. -/
def relativeField (a t : Word) : BitVec 9 := (t - (a + 1)).extractLsb' 0 9

/-! ## The opcode table's numbering -/

/-- The word whose low `nbits` bits are those of `w`, every bit above them 0. -/
def tableWord (nbits w : Nat) : Word := BitVec.ofNat 16 (w % 2 ^ nbits)

/-- The instruction the decoder reads from the table's word: laid out as two bytes, high byte first, and decoded. -/
def decodeTableWord (nbits w : Nat) : Option Instr :=
  match decodeBytes [(tableWord nbits w).extractLsb' 8 8, (tableWord nbits w).extractLsb' 0 8] with
  | .ok (i, _) => some i
  | .error _ => none

end Sys2Proof
end

