-- ==== Sys2Proof/Machine/State.lean ====
section
/-! DEFINITION. The state of the engine as plain data (spec 10_state.md), the reasons a step can stop, and the state
right after reset. -/

namespace Sys2Proof.Machine

/-- The memory: (cell number, content) pairs. The unit is the 16-bit cell (20_memory.md R40; log 10). A cell that is not
listed reads as `memFill`. -/
abbrev Memory := List (Nat × Word)

/-- The canonical form: cell numbers strictly rise and are below 65536, and no entry equals what an unlisted cell reads
as, so that equal memories are equal lists. -/
abbrev Memory.wf (m : Memory) : Prop :=
  List.Pairwise (fun c d => c.1 < d.1) m ∧ ∀ c ∈ m, c.1 < 65536 ∧ c.2 ≠ memFill

/-- The state of the engine and of the console streams. -/
structure State where
  /-- R0 to R7 (R20). -/
  regs : Vector Word 8
  /-- The condition codes (R23). -/
  cc : CondBits
  /-- The program counter (R26). -/
  pc : Word
  /-- The word fetched for the current instruction (R29). -/
  ir : Word
  /-- The run latch (R30). -/
  halted : Bool
  /-- Inside a `TRAP 0x20` whose byte has not been delivered (60_exceptions.md R162). -/
  waiting : Bool
  /-- The 65536 cells (R31). -/
  mem : Memory
  /-- `INPUT` as far as the environment has delivered it, consumed bytes included (43_trap.md R137). -/
  input : List Byte
  /-- Whether the environment has reported the end of input after the last byte of `input` (R132). -/
  inputClosed : Bool
  /-- The number of bytes already consumed (R32). -/
  consumed : Nat
  /-- Whether the end of the stream has been reached (R32). -/
  endReached : Bool
  /-- The console output, oldest byte first (R33). -/
  output : List Byte
  /-- The parameters of the run (R36). -/
  cfg : Config
deriving DecidableEq, Repr

/-- The synchronous exceptions of the engine: there are none, "the set of exception causes is empty" (60_exceptions.md
R150). -/
inductive Fault where
deriving DecidableEq, Repr

/-- Why the model gives a run no meaning. -/
inductive Refusal where
  /-- Raised by an arm of `exec` whose instruction has no meaning yet; safe. No arm of this model raises it. -/
  | notModelled (mnemonic : String)
  /-- Raised by the reserved opcode values 8 and 13 (30_encoding.md R72: "The model must *refuse* a run that executes a
  reserved word"); safe. -/
  | reservedOpcode (opc : BitVec 4)
  /-- Raised by a step after which the PC is 0x0000 under `PC_ZERO_POLICY = refuse` (70_reset_and_hazards.md R183); safe. -/
  | pcZero
  /-- Raised by the launch for an image of more than `65536 - ORIGIN` words (R173); safe. -/
  | imageTooLong
  /-- Raised by the launch for `ORIGIN` 0x0000 (00_scope.md R6: "16-bit address, nonzero"); safe. -/
  | originZero
deriving DecidableEq, Repr

/-- What `ConsoleIn()` answers (43_trap.md R132, R137). -/
inductive ConsoleAnswer where
  /-- The next byte of the input. -/
  | byte (b : Byte)
  /-- Every byte has been consumed and the stream has ended. -/
  | endOfInput
  /-- The environment has neither a byte nor the end of input yet. -/
  | notYet
deriving DecidableEq, Repr

/-- The state right after reset (R35) with the spec's own parameters, no image and no input delivered. The registers, CC
and the memory hold the values of log 1, 2 and 3. -/
def State.reset : State where
  regs := #v[regFill, regFill, regFill, regFill, regFill, regFill, regFill, regFill]
  cc := ccFill
  pc := Config.standard.entry
  ir := 0x0000
  halted := false
  waiting := false
  mem := []
  input := []
  inputClosed := false
  consumed := 0
  endReached := false
  output := []
  cfg := Config.standard

end Sys2Proof.Machine
end

