-- ==== Sys2Proof/Machine/Ops.lean ====
section
/-! DEFINITION. The named operations over registers, memory, the program counter, the run latch and the console, each
written once (spec 00_scope.md R9). The engine takes no exception and returns from none (60_exceptions.md R150, R154,
R155), so there is no exception entry here. -/

namespace Sys2Proof.Machine

/-! ## General registers -/

/-- `R[i]` (R20). -/
def State.readReg (s : State) (i : RegNum) : Word := s.regs[i.toNat]'(by omega)

/-- `R[i] <- v`; every register is an ordinary read-write register (R20). -/
def State.writeReg (s : State) (i : RegNum) (v : Word) : State :=
  { s with regs := s.regs.set i.toNat v (by omega) }

/-! ## Memory -/

/-- The content of cell `a`. -/
def Memory.read : Memory → Nat → Word
  | [], _ => memFill
  | (k, w) :: rest, a => if a = k then w else Memory.read rest a

/-- Cell `a` takes the value `v`; the canonical form is kept. -/
def Memory.write : Memory → Nat → Word → Memory
  | [], a, v => if v = memFill then [] else [(a, v)]
  | (k, w) :: rest, a, v =>
    if a < k then if v = memFill then (k, w) :: rest else (a, v) :: (k, w) :: rest
    else if a = k then if v = memFill then rest else (a, v) :: rest
    else (k, w) :: Memory.write rest a v

/-- `MemRead(a, 1)`: reading has no other effect and never fails (20_memory.md R41). -/
def State.memRead (s : State) (a : Word) : Word := s.mem.read a.toNat

/-- `MemWrite(a, 1, v)`: writing has no other effect and never fails (R42). -/
def State.memWrite (s : State) (a v : Word) : State := { s with mem := s.mem.write a.toNat v }

/-! ## Program counter, instruction word, run latch -/

/-- `pc <- a`. -/
def State.jump (s : State) (a : Word) : State := { s with pc := a }

/-- The first two lines of `step` (10_state.md R27): the fetch, and the increment modulo 65536. -/
def State.fetch (s : State) : State := { s with ir := s.memRead s.pc, pc := s.pc + 1 }

/-- `halted <- 1` (R30). -/
def State.halt (s : State) : State := { s with halted := true }

/-- Enter or leave the run state *waiting for input* (60_exceptions.md R162). -/
def State.setWaiting (s : State) (b : Bool) : State := { s with waiting := b }

/-! ## The console -/

/-- One more byte of the input is consumed (R32). -/
def State.consumeByte (s : State) : State := { s with consumed := s.consumed + 1 }

/-- The end of the input has been reached (R32). -/
def State.reachEnd (s : State) : State := { s with endReached := true }

/-- `ConsoleIn()` (43_trap.md R132): the first unconsumed byte, or the end of input, which is permanent (R133), or
nothing yet (R137); with the state after it. -/
def State.consoleIn (s : State) : ConsoleAnswer × State :=
  if s.endReached then (.endOfInput, s)
  else match s.input[s.consumed]? with
    | some b => (.byte b, s.consumeByte)
    | none => if s.inputClosed then (.endOfInput, s.reachEnd) else (.notYet, s)

/-- `ConsoleOut(b)`: one byte appended to the output, delivered at once (R134). -/
def State.consoleOut (s : State) (b : Byte) : State := { s with output := s.output ++ [b] }

/-- The environment delivers one more byte of the input, between steps (R137). After the end of input there is none. -/
def State.deliver (s : State) (b : Byte) : State :=
  if s.inputClosed then s else { s with input := s.input ++ [b] }

/-- The environment reports the end of the input, between steps (R137). -/
def State.endInput (s : State) : State := { s with inputClosed := true }

/-! ## The end of a step -/

/-- `PC_ZERO_POLICY` at the end of an instruction (70_reset_and_hazards.md R183, D6): under `refuse`, a running engine
whose next PC is 0x0000 is refused. A halted engine has no next PC and an engine that waits has not finished its
instruction (log 7). -/
def pcZeroCheck (s : State) : Host.Outcome State Fault Refusal :=
  if s.cfg.pcZeroPolicy = .refuse ∧ s.pc = 0 ∧ s.halted = false ∧ s.waiting = false then .refused .pcZero
  else .next s

/-- What follows `execute` in a step: the check above on a next state, and a stop left as it is. -/
def endStep : Host.Outcome State Fault Refusal → Host.Outcome State Fault Refusal
  | .next s => pcZeroCheck s
  | .fault r => .fault r
  | .refused r => .refused r

/-- The state with the table word stored in the cell the next step fetches from, and the engine running: a halted engine
performs no step and a waiting one does not fetch (log 12). -/
def State.placeWord (s : State) (w : Word) : State :=
  { s.memWrite s.pc w with halted := false, waiting := false }

end Sys2Proof.Machine
end

