-- ==== Sys2Proof/Machine/Operands.lean ====
section
/-! DEFINITION. The operand forms: the sign and zero extensions (spec 30_encoding.md R66 to R69) and the three addressing
modes (42_data_movement.md). Every address sum is modulo 65536 (20_memory.md R43). -/

namespace Sys2Proof.Machine

/-- `imm5 = sext_5(ir[4:0])`, -16 to 15 (R67). -/
def sext5 (f : BitVec 5) : Word := f.signExtend 16

/-- `off6 = sext_6(ir[5:0])`, -32 to 31 (R68). -/
def sext6 (f : BitVec 6) : Word := f.signExtend 16

/-- `off9 = sext_9(ir[8:0])`, -256 to 255 (R68). -/
def sext9 (f : BitVec 9) : Word := f.signExtend 16

/-- `zext_8` of an input byte (43_trap.md R132). -/
def zext8 (b : Byte) : Word := b.setWidth 16

/-- `v[7:0]`, the byte that `TRAP 0x21` writes (R134). -/
def lowByte (v : Word) : Byte := v.extractLsb' 0 8

/-- The PC-relative address `pc + off9`, `pc` being the incremented PC (42_data_movement.md R117 (e)). -/
def State.relAddr (s : State) (off9 : BitVec 9) : Word := s.pc + sext9 off9

/-- The base-plus-offset address `R[y] + off6` (R112, R113). -/
def State.baseAddr (s : State) (y : RegNum) (off6 : BitVec 6) : Word := s.readReg y + sext6 off6

/-- The indirect address: the content of the cell at `pc + off9`, used as it is (R114, R115). -/
def State.indirectAddr (s : State) (off9 : BitVec 9) : Word := s.memRead (s.relAddr off9)

end Sys2Proof.Machine
end

