-- ==== Sys2Proof/Machine/Control.lean ====
section
/-! DEFINITION. Control transfer: BR, JSR, JMP (spec 40_control.md). The state holds the incremented PC. -/

namespace Sys2Proof.Machine

/-- BR (R90): the branch is taken when CC and the mask have a common bit. -/
def execBr (x : CondBits) (off9 : BitVec 9) (s : State) : Host.Outcome State Fault Refusal :=
  if s.cc &&& x ≠ 0 then .next (s.jump (s.relAddr off9)) else .next s

/-- JSR (R91): R7 takes the incremented PC, then the PC moves. -/
def execJsr (off9 : BitVec 9) (s : State) : Host.Outcome State Fault Refusal :=
  .next ((s.writeReg 7 s.pc).jump (s.relAddr off9))

/-- JMP (R92). -/
def execJmp (y : RegNum) (s : State) : Host.Outcome State Fault Refusal :=
  .next (s.jump (s.readReg y))

end Sys2Proof.Machine
end

