-- ==== Sys2Proof/Machine/Flags.lean ====
section
/-! DEFINITION. The condition codes (spec 10_state.md R23 to R25): N, Z, P classify the 16-bit value that a flag-setting
instruction writes. There is no carry and no overflow flag (R34). -/

namespace Sys2Proof.Machine

/-- The CC value for a result: N if bit 15 is 1, Z if it is zero, P otherwise (R24). -/
def condOf (v : Word) : CondBits :=
  if v.msb then 0b100 else if v = 0 then 0b010 else 0b001

/-- `setcc(v)` (R24). -/
def State.setcc (s : State) (v : Word) : State := { s with cc := condOf v }

/-- `R[x] <- v; setcc(v)`: how each of the seven flag-setting instructions ends (R25). -/
def State.writeResult (s : State) (x : RegNum) (v : Word) : State := (s.writeReg x v).setcc v

end Sys2Proof.Machine
end

