-- ==== Sys2Proof/Machine/DataMovement.lean ====
section
/-! DEFINITION. Data movement: LD, ST, LDR, STR, LDI, STI, LEA (spec 42_data_movement.md). The address comes from the
registers and the memory as they stood before the instruction (R117). -/

namespace Sys2Proof.Machine

/-- LD (R110). -/
def execLd (x : RegNum) (off9 : BitVec 9) (s : State) : Host.Outcome State Fault Refusal :=
  .next (s.writeResult x (s.memRead (s.relAddr off9)))

/-- ST (R111). -/
def execSt (x : RegNum) (off9 : BitVec 9) (s : State) : Host.Outcome State Fault Refusal :=
  .next (s.memWrite (s.relAddr off9) (s.readReg x))

/-- LDR (R112). -/
def execLdr (x y : RegNum) (off6 : BitVec 6) (s : State) : Host.Outcome State Fault Refusal :=
  .next (s.writeResult x (s.memRead (s.baseAddr y off6)))

/-- STR (R113). -/
def execStr (x y : RegNum) (off6 : BitVec 6) (s : State) : Host.Outcome State Fault Refusal :=
  .next (s.memWrite (s.baseAddr y off6) (s.readReg x))

/-- LDI (R114): the flags follow the loaded value, not the pointer. -/
def execLdi (x : RegNum) (off9 : BitVec 9) (s : State) : Host.Outcome State Fault Refusal :=
  .next (s.writeResult x (s.memRead (s.indirectAddr off9)))

/-- STI (R115): the pointer is read before the write (20_memory.md R52). -/
def execSti (x : RegNum) (off9 : BitVec 9) (s : State) : Host.Outcome State Fault Refusal :=
  .next (s.memWrite (s.indirectAddr off9) (s.readReg x))

/-- LEA (R116): the address itself, which sets the flags; no memory access. -/
def execLea (x : RegNum) (off9 : BitVec 9) (s : State) : Host.Outcome State Fault Refusal :=
  .next (s.writeResult x (s.relAddr off9))

end Sys2Proof.Machine
end

