-- ==== Sys2Proof/Machine/Operate.lean ====
section
/-! DEFINITION. The operate instructions ADD, AND, NOT (spec 41_operate.md). Sources are read before the destination is
written (R105). -/

namespace Sys2Proof.Machine

/-- ADD, register form (R100). -/
def execAddReg (x y r : RegNum) (s : State) : Host.Outcome State Fault Refusal :=
  .next (s.writeResult x (s.readReg y + s.readReg r))

/-- ADD, immediate form (R101). -/
def execAddImm (x y : RegNum) (imm5 : BitVec 5) (s : State) : Host.Outcome State Fault Refusal :=
  .next (s.writeResult x (s.readReg y + sext5 imm5))

/-- AND, register form (R102). -/
def execAndReg (x y r : RegNum) (s : State) : Host.Outcome State Fault Refusal :=
  .next (s.writeResult x (s.readReg y &&& s.readReg r))

/-- AND, immediate form (R103): the immediate is sign-extended before the AND. -/
def execAndImm (x y : RegNum) (imm5 : BitVec 5) (s : State) : Host.Outcome State Fault Refusal :=
  .next (s.writeResult x (s.readReg y &&& sext5 imm5))

/-- NOT (R104). -/
def execNot (x y : RegNum) (s : State) : Host.Outcome State Fault Refusal :=
  .next (s.writeResult x (~~~ s.readReg y))

end Sys2Proof.Machine
end

