-- ==== Sys2Proof/Machine/Reserved.lean ====
section
/-! DEFINITION. The reserved opcode values (spec 30_encoding.md R72): the spec gives them no effect and no fault, and has
the model refuse a run that executes one. -/

namespace Sys2Proof.Machine

/-- Opcode 8 (R72, `RESERVED_OP_EFFECT`, D7). -/
def execReserved8 (_s : State) : Host.Outcome State Fault Refusal := .refused (.reservedOpcode 8)

/-- Opcode 13 (R72, `RESERVED_OP_EFFECT`, D7). -/
def execReserved13 (_s : State) : Host.Outcome State Fault Refusal := .refused (.reservedOpcode 13)

end Sys2Proof.Machine
end

