-- ==== Sys2Proof/Machine/Trap.lean ====
section
/-! DEFINITION. TRAP and its services (spec 43_trap.md). The engine performs the service inside the step: no vector table
is read, the PC is not redirected, R7 and CC are not written (R131, 60_exceptions.md R154). -/

namespace Sys2Proof.Machine

/-- Vector 0x20 (R132, R133): R0 takes the zero-extended byte, or `EOF_SENTINEL` at the end of input; with neither
available the engine waits inside the instruction, nothing else changed (R137, R162). -/
def trapIn (s : State) : Host.Outcome State Fault Refusal :=
  match s.consoleIn with
  | (.byte b, t) => .next (t.writeReg 0 (zext8 b))
  | (.endOfInput, t) => .next (t.writeReg 0 t.cfg.eofSentinel)
  | (.notYet, t) => .next (t.setWaiting true)

/-- Vector 0x21 (R134). -/
def trapOut (s : State) : Host.Outcome State Fault Refusal :=
  .next (s.consoleOut (lowByte (s.readReg 0)))

/-- Vector 0x25 (R135). -/
def trapHalt (s : State) : Host.Outcome State Fault Refusal :=
  .next s.halt

/-- TRAP (R130): the dispatch on the service number; every other vector is a no-op (R136). -/
def execTrap (vect8 : BitVec 8) (s : State) : Host.Outcome State Fault Refusal :=
  if vect8 = 0x20 then trapIn s
  else if vect8 = 0x21 then trapOut s
  else if vect8 = 0x25 then trapHalt s
  else .next s

/-- A step of an engine that waits inside `TRAP 0x20`: the instruction is taken up again (R162). -/
def resumeTrapIn (s : State) : Host.Outcome State Fault Refusal :=
  trapIn (s.setWaiting false)

end Sys2Proof.Machine
end

