-- ==== Sys2Proof/Machine/Dispatch.lean ====
section
/-! DEFINITION. execute(ir) (spec 30_encoding.md R70): one arm per instruction. The state holds the incremented PC
(10_state.md R27). -/

namespace Sys2Proof.Machine

def exec (i : Instr) (s : State) : Host.Outcome State Fault Refusal :=
  match i with
  | .br x off9 => Sys2Proof.Machine.execBr x off9 s
  | .addReg x y r => Sys2Proof.Machine.execAddReg x y r s
  | .addImm x y imm5 => Sys2Proof.Machine.execAddImm x y imm5 s
  | .ld x off9 => Sys2Proof.Machine.execLd x off9 s
  | .st x off9 => Sys2Proof.Machine.execSt x off9 s
  | .jsr off9 => Sys2Proof.Machine.execJsr off9 s
  | .andReg x y r => Sys2Proof.Machine.execAndReg x y r s
  | .andImm x y imm5 => Sys2Proof.Machine.execAndImm x y imm5 s
  | .ldr x y off6 => Sys2Proof.Machine.execLdr x y off6 s
  | .str x y off6 => Sys2Proof.Machine.execStr x y off6 s
  | .reserved8 => Sys2Proof.Machine.execReserved8 s
  | .not x y => Sys2Proof.Machine.execNot x y s
  | .ldi x off9 => Sys2Proof.Machine.execLdi x off9 s
  | .sti x off9 => Sys2Proof.Machine.execSti x off9 s
  | .jmp y => Sys2Proof.Machine.execJmp y s
  | .reserved13 => Sys2Proof.Machine.execReserved13 s
  | .lea x off9 => Sys2Proof.Machine.execLea x off9 s
  | .trap vect8 => Sys2Proof.Machine.execTrap vect8 s

end Sys2Proof.Machine
end

