-- ==== Sys2Proof/Machine/Cycle.lean ====
section
/-! DEFINITION. The instruction cycle (spec 10_state.md R27, R30; 60_exceptions.md R162). -/

namespace Sys2Proof.Machine

/-- What a step of a halted engine does: nothing, "no further instruction executed" (R30, U20; log 11). -/
def haltedStep (s : State) : Host.Outcome State Fault Refusal := .next s

/-- What a step of an engine that waits for input does: its `TRAP 0x20` is taken up again, with no fetch (R162, log 9). -/
def waitingStep (s : State) : Host.Outcome State Fault Refusal := endStep (resumeTrapIn s)

/-- What a step of a running engine does: fetch, increment, execute (R27). -/
def runningStep (s : State) : Host.Outcome State Fault Refusal := endStep (exec (decodeWord s.fetch.ir) s.fetch)

/-- The three run states (R162). -/
def cycle (s : State) : Host.Outcome State Fault Refusal :=
  if s.halted then haltedStep s else if s.waiting then waitingStep s else runningStep s

end Sys2Proof.Machine
end

