-- ==== Sys2Proof/Machine/Step.lean ====
section
/-! DEFINITION. One step of the engine, and the placing of one word where the next step fetches. -/

namespace Sys2Proof.Machine

/-- One `step` (spec 10_state.md R27). -/
def step (s : State) : Host.Outcome State Fault Refusal := cycle s

/-- The state whose very next step fetches and runs the table word (log 12). -/
def State.withFetchWord (s : State) (nbits w : Nat) : State := s.placeWord (tableWord nbits w)

end Sys2Proof.Machine
end

