-- ==== Sys2Proof/Machine/Launch.lean ====
section
/-! DEFINITION. Reset and launch (spec 10_state.md R35, 70_reset_and_hazards.md R170 to R173): the state before the first
step as a function of the run's parameters and free inputs. -/

namespace Sys2Proof.Machine

/-- The inputs of a launch: the parameters (R6), the free reset values (R35) and what the host supplies (R175). -/
structure Launch where
  /-- `ORIGIN`, `EOF_SENTINEL`, `PC_ZERO_POLICY`. -/
  cfg : Config
  /-- `REG_RESET`. -/
  regReset : Vector Word 8
  /-- `CC_RESET`. -/
  ccReset : CondBits
  /-- `MEM_INIT`, the content of the cells before the image is loaded. -/
  memInit : Memory
  /-- The image, a flat stream of bytes. -/
  image : List Byte
  /-- `INPUT`, as far as it is delivered before the run starts. -/
  input : List Byte
  /-- Whether `INPUT` ends there. -/
  inputClosed : Bool
deriving DecidableEq, Repr

/-- The big-endian words of the image; a trailing single byte is dropped (R172, R173 (a)). -/
def imageWords : List Byte → List Word
  | hi :: lo :: rest => wordOfBytes hi lo :: imageWords rest
  | [_] => []
  | [] => []

/-- The words stored in consecutive cells from cell `a` (R172). -/
def loadWords (m : Memory) (a : Nat) : List Word → Memory
  | [] => m
  | w :: ws => loadWords (m.write a w) (a + 1) ws

/-- Reset, image load, input made available (R175). An origin of 0x0000 (R6) and an image of more than `65536 - ORIGIN`
words (R173 (c)) are refused. -/
def boot (l : Launch) : Host.Outcome State Fault Refusal :=
  if l.cfg.origin = 0 then .refused .originZero
  else if 65536 - l.cfg.origin.toNat < (imageWords l.image).length then .refused .imageTooLong
  else .next
    { regs := l.regReset
      cc := l.ccReset
      pc := l.cfg.entry
      ir := 0x0000
      halted := false
      waiting := false
      mem := loadWords l.memInit l.cfg.origin.toNat (imageWords l.image)
      input := l.input
      inputClosed := l.inputClosed
      consumed := 0
      endReached := false
      output := []
      cfg := l.cfg }

end Sys2Proof.Machine
end

