-- ==== Sys2Proof/Safety.lean ====
section
/-! DEFINITION. The terms in which claims are stated: frames, the classification of a result by the condition codes, the
spec's tables of register and memory accesses, the run states, and the invariant of a run. Nothing here is part of the
machine. -/

namespace Sys2Proof.Machine

/-! ## Frames -/

/-- Every register outside `xs` is unchanged. -/
def SameRegsExcept (xs : List RegNum) (s t : State) : Prop := ∀ i, i ∉ xs → t.readReg i = s.readReg i

/-- Every memory cell outside `cells` reads as before. -/
def SameMemoryExcept (cells : List Word) (s t : State) : Prop := ∀ a, a ∉ cells → t.memRead a = s.memRead a

/-- The console streams are unchanged. -/
def SameConsole (s t : State) : Prop :=
  t.input = s.input ∧ t.inputClosed = s.inputClosed ∧ t.consumed = s.consumed ∧ t.endReached = s.endReached ∧
    t.output = s.output

/-- The run latch, the waiting state, the fetched word and the parameters are unchanged. -/
def SameControl (s t : State) : Prop :=
  t.halted = s.halted ∧ t.waiting = s.waiting ∧ t.ir = s.ir ∧ t.cfg = s.cfg

/-- Everything but register `x` and CC is unchanged. -/
def OnlyResultChanged (x : RegNum) (s t : State) : Prop :=
  SameRegsExcept [x] s t ∧ SameMemoryExcept [] s t ∧ t.pc = s.pc ∧ SameConsole s t ∧ SameControl s t

/-- Everything but the cells listed is unchanged. -/
def OnlyCellsChanged (cells : List Word) (s t : State) : Prop :=
  SameRegsExcept [] s t ∧ SameMemoryExcept cells s t ∧ t.cc = s.cc ∧ t.pc = s.pc ∧ SameConsole s t ∧ SameControl s t

/-- Everything but the PC and the registers listed is unchanged. -/
def OnlyPcAndRegsChanged (xs : List RegNum) (s t : State) : Prop :=
  SameRegsExcept xs s t ∧ SameMemoryExcept [] s t ∧ t.cc = s.cc ∧ SameConsole s t ∧ SameControl s t

/-- A change of the next state carried through an outcome; a stop stays as it is. -/
def mapNext (f : State → State) : Host.Outcome State Fault Refusal → Host.Outcome State Fault Refusal
  | .next t => .next (f t)
  | .fault r => .fault r
  | .refused r => .refused r

/-! ## Condition codes -/

/-- CC value `c` classifies `v` by its signed interpretation (spec 10_state.md R24). -/
def Classifies (c : CondBits) (v : Word) : Prop :=
  (v.toInt < 0 → c = 0b100) ∧ (v.toInt = 0 → c = 0b010) ∧ (0 < v.toInt → c = 0b001)

/-- Exactly one of N, Z, P is set (R24). -/
def OneHot (c : CondBits) : Prop := c = 0b100 ∨ c = 0b010 ∨ c = 0b001

/-- The destination of a flag-setting instruction; none for the others (R25). -/
def flagDest : Instr → Option RegNum
  | .addReg x _ _ => some x
  | .addImm x _ _ => some x
  | .andReg x _ _ => some x
  | .andImm x _ _ => some x
  | .not x _ => some x
  | .ld x _ => some x
  | .ldr x _ _ => some x
  | .ldi x _ => some x
  | .lea x _ => some x
  | .br _ _ => none
  | .st _ _ => none
  | .str _ _ _ => none
  | .sti _ _ => none
  | .jsr _ => none
  | .jmp _ => none
  | .trap _ => none
  | .reserved8 => none
  | .reserved13 => none

/-! ## The spec's access tables -/

/-- The registers an instruction reads (R22). -/
def regsRead : Instr → List RegNum
  | .br _ _ => []
  | .addReg _ y r => [y, r]
  | .addImm _ y _ => [y]
  | .andReg _ y r => [y, r]
  | .andImm _ y _ => [y]
  | .not _ y => [y]
  | .ld _ _ => []
  | .ldi _ _ => []
  | .lea _ _ => []
  | .ldr _ y _ => [y]
  | .st x _ => [x]
  | .sti x _ => [x]
  | .str x y _ => [x, y]
  | .jsr _ => []
  | .jmp y => [y]
  | .trap v => if v = 0x21 then [0] else []
  | .reserved8 => []
  | .reserved13 => []

/-- The registers an instruction writes (R22). -/
def regsWritten : Instr → List RegNum
  | .br _ _ => []
  | .addReg x _ _ => [x]
  | .addImm x _ _ => [x]
  | .andReg x _ _ => [x]
  | .andImm x _ _ => [x]
  | .not x _ => [x]
  | .ld x _ => [x]
  | .ldi x _ => [x]
  | .lea x _ => [x]
  | .ldr x _ _ => [x]
  | .st _ _ => []
  | .sti _ _ => []
  | .str _ _ _ => []
  | .jsr _ => [7]
  | .jmp _ => []
  | .trap v => if v = 0x20 then [0] else []
  | .reserved8 => []
  | .reserved13 => []

/-- The cells an instruction reads after its fetch, in order (20_memory.md R46). -/
def cellsRead (i : Instr) (s : State) : List Word :=
  match i with
  | .ld _ off9 => [s.pc + sext9 off9]
  | .ldr _ y off6 => [s.readReg y + sext6 off6]
  | .ldi _ off9 => [s.pc + sext9 off9, s.memRead (s.pc + sext9 off9)]
  | .sti _ off9 => [s.pc + sext9 off9]
  | .br _ _ => []
  | .addReg _ _ _ => []
  | .addImm _ _ _ => []
  | .andReg _ _ _ => []
  | .andImm _ _ _ => []
  | .not _ _ => []
  | .lea _ _ => []
  | .st _ _ => []
  | .str _ _ _ => []
  | .jsr _ => []
  | .jmp _ => []
  | .trap _ => []
  | .reserved8 => []
  | .reserved13 => []

/-- The cell a storing instruction writes and the register it stores (R46). -/
def store (i : Instr) (s : State) : Option (Word × RegNum) :=
  match i with
  | .st x off9 => some (s.pc + sext9 off9, x)
  | .str x y off6 => some (s.readReg y + sext6 off6, x)
  | .sti x off9 => some (s.memRead (s.pc + sext9 off9), x)
  | .br _ _ => none
  | .addReg _ _ _ => none
  | .addImm _ _ _ => none
  | .andReg _ _ _ => none
  | .andImm _ _ _ => none
  | .not _ _ => none
  | .ld _ _ => none
  | .ldr _ _ _ => none
  | .ldi _ _ => none
  | .lea _ _ => none
  | .jsr _ => none
  | .jmp _ => none
  | .trap _ => none
  | .reserved8 => none
  | .reserved13 => none

/-- The cells an instruction writes: one for a storing instruction, none for the others (R46). -/
def cellsWritten (i : Instr) (s : State) : List Word := ((store i s).map Prod.fst).toList

/-- The final PC of an instruction, the state holding the incremented PC (10_state.md R28). -/
def finalPc (i : Instr) (s : State) : Word :=
  match i with
  | .br x off9 => if s.cc &&& x = 0 then s.pc else s.pc + sext9 off9
  | .jsr off9 => s.pc + sext9 off9
  | .jmp y => s.readReg y
  | .addReg _ _ _ => s.pc
  | .addImm _ _ _ => s.pc
  | .andReg _ _ _ => s.pc
  | .andImm _ _ _ => s.pc
  | .not _ _ => s.pc
  | .ld _ _ => s.pc
  | .ldr _ _ _ => s.pc
  | .ldi _ _ => s.pc
  | .lea _ _ => s.pc
  | .st _ _ => s.pc
  | .str _ _ _ => s.pc
  | .sti _ _ => s.pc
  | .trap _ => s.pc
  | .reserved8 => s.pc
  | .reserved13 => s.pc

/-! ## Run states -/

/-- The engine executes steps (60_exceptions.md R162). -/
def Running (s : State) : Prop := s.halted = false ∧ s.waiting = false

/-- The step from `s` is inside a `TRAP 0x20`: it fetches one, or it takes one up again (R162). -/
def InTrapIn (s : State) : Prop :=
  s.halted = false ∧ (s.waiting = true ∨ decodeWord (s.memRead s.pc) = .trap 0x20)

/-- A byte of the input is there to be consumed. -/
def ByteReady (s : State) (b : Byte) : Prop := s.endReached = false ∧ s.input[s.consumed]? = some b

/-- Every byte has been consumed and the stream has ended (43_trap.md R132, R133). -/
def InputExhausted (s : State) : Prop :=
  s.endReached = true ∨ (s.input[s.consumed]? = none ∧ s.inputClosed = true)

/-- Neither a byte nor the end of input is there (R137). -/
def InputPending (s : State) : Prop :=
  s.endReached = false ∧ s.input[s.consumed]? = none ∧ s.inputClosed = false

/-! ## The invariant of a run -/

/-- What holds of every state of a run: the memory is in canonical form; no byte is consumed that was not delivered; the
end is reached only when the stream has ended and every byte is consumed; the engine is in exactly one of its three run
states (R162); it waits only inside a `TRAP 0x20`. -/
structure Inv (s : State) : Prop where
  mem_wf : s.mem.wf
  consumed_le : s.consumed ≤ s.input.length
  end_reached : s.endReached = true → s.inputClosed = true ∧ s.consumed = s.input.length
  one_run_state : s.halted = true → s.waiting = false
  waits_in_trap : s.waiting = true → decodeWord s.ir = .trap 0x20

/-- A run has ended: the latch is set (70_reset_and_hazards.md R181). -/
def Ended (s : State) : Prop := s.halted = true

end Sys2Proof.Machine
end

