-- ==== Sys2Proof/Certificates/Slice0/Obligations.lean ====
section
/-! DEFINITION. The statements for the provers. Each docstring names the rule of the spec it formalises. `exec` runs on a
state that holds the incremented PC (10_state.md R27). -/

open Sys2Proof Sys2Proof.Machine

/-! ## Encoding (spec 30_encoding.md) -/

/-- A few words of 95_test_vectors.md section 2.9, written out from the patterns of R63, decode to the instructions they
stand for. -/
def Obligations.WrittenOutWordsDecode : Prop :=
  decodeWord 0b0000101111111101 = .br 0b101 0x1FD ∧
  decodeWord 0b0001000001000010 = .addReg 0 1 2 ∧
  decodeWord 0b0001001001111111 = .addImm 1 1 0b11111 ∧
  decodeWord 0b0011011000000011 = .st 3 3 ∧
  decodeWord 0b0100111111111101 = .jsr 0x1FD ∧
  decodeWord 0b0101011011111111 = .andImm 3 3 0b11111 ∧
  decodeWord 0b0111001110111111 = .str 1 6 0b111111 ∧
  decodeWord 0b1000000100100011 = .reserved8 ∧
  decodeWord 0b1001010001111111 = .not 2 1 ∧
  decodeWord 0b1011000111111111 = .sti 0 0x1FF ∧
  decodeWord 0b1100111111111111 = .jmp 7 ∧
  decodeWord 0b1111000000100101 = .trap 0x25

/-- Decode and encode agree for every instruction and every value of every operand field (R63, R76), as words and as the
two bytes of the image, high byte first (R44, R172). -/
def Obligations.DecodeOfEncodeIsIdentity : Prop :=
  (∀ i : Instr, decodeWord (encode i) = i) ∧
  ∀ (i : Instr) (rest : List Byte), decodeBytes (encodeBytes i ++ rest) = .ok (i, rest)

/-- Encoding the decoded instruction of any word gives the canonical spelling of that word: the same word with every
ignored bit 0 (R64, R65). -/
def Obligations.EncodeOfDecodeIsCanonicalSpelling : Prop :=
  ∀ w : Word, encode (decodeWord w) = w &&& ~~~ (decodeWord w).ignoredBits

/-- Ignored bits (R64), bit by bit as the rule lists them: two words that differ only there decode to the same
instruction and execute identically, and neither raises anything: both answer one and the same next state. For TRAP 0x20
with neither a byte nor the end of input that next state is the model's: the spec has the step not complete (43_trap.md
R132), and the model answers its waiting state (log 9). -/
def Obligations.IgnoredBitsHaveNoInfluence : Prop :=
  ∀ w v : Word,
    ((w &&& 0xF020 = 0x1000 ∨ w &&& 0xF020 = 0x5000) ∧ (w ^^^ v) &&& ~~~ 0x0018 = 0) ∨
    (w &&& 0xF000 = 0x9000 ∧ (w ^^^ v) &&& ~~~ 0x003F = 0) ∨
    (w &&& 0xF000 = 0xC000 ∧ (w ^^^ v) &&& ~~~ 0x0E3F = 0) ∨
    (w &&& 0xF000 = 0x4000 ∧ (w ^^^ v) &&& ~~~ 0x0E00 = 0) ∨
    (w &&& 0xF000 = 0xF000 ∧ (w ^^^ v) &&& ~~~ 0x0F00 = 0) →
    decodeWord v = decodeWord w ∧
      ∀ s, ∃ t, exec (decodeWord w) s = .next t ∧ exec (decodeWord v) s = .next t

/-- The encoding formulas of R76: each canonical word is the stated sum of its opcode and its shifted fields. -/
def Obligations.EncodeFollowsTheFormulas : Prop :=
  (∀ (x : CondBits) (o : BitVec 9), (encode (.br x o)).toNat = 0x0000 + x.toNat * 512 + o.toNat) ∧
  (∀ x y r : RegNum, (encode (.addReg x y r)).toNat = 0x1000 + x.toNat * 512 + y.toNat * 64 + r.toNat) ∧
  (∀ (x y : RegNum) (i : BitVec 5),
    (encode (.addImm x y i)).toNat = 0x1000 + x.toNat * 512 + y.toNat * 64 + 0x20 + i.toNat) ∧
  (∀ (x : RegNum) (o : BitVec 9), (encode (.ld x o)).toNat = 0x2000 + x.toNat * 512 + o.toNat) ∧
  (∀ (x : RegNum) (o : BitVec 9), (encode (.st x o)).toNat = 0x3000 + x.toNat * 512 + o.toNat) ∧
  (∀ o : BitVec 9, (encode (.jsr o)).toNat = 0x4000 + o.toNat) ∧
  (∀ x y r : RegNum, (encode (.andReg x y r)).toNat = 0x5000 + x.toNat * 512 + y.toNat * 64 + r.toNat) ∧
  (∀ (x y : RegNum) (i : BitVec 5),
    (encode (.andImm x y i)).toNat = 0x5000 + x.toNat * 512 + y.toNat * 64 + 0x20 + i.toNat) ∧
  (∀ (x y : RegNum) (o : BitVec 6),
    (encode (.ldr x y o)).toNat = 0x6000 + x.toNat * 512 + y.toNat * 64 + o.toNat) ∧
  (∀ (x y : RegNum) (o : BitVec 6),
    (encode (.str x y o)).toNat = 0x7000 + x.toNat * 512 + y.toNat * 64 + o.toNat) ∧
  (∀ x y : RegNum, (encode (.not x y)).toNat = 0x9000 + x.toNat * 512 + y.toNat * 64) ∧
  (∀ (x : RegNum) (o : BitVec 9), (encode (.ldi x o)).toNat = 0xA000 + x.toNat * 512 + o.toNat) ∧
  (∀ (x : RegNum) (o : BitVec 9), (encode (.sti x o)).toNat = 0xB000 + x.toNat * 512 + o.toNat) ∧
  (∀ y : RegNum, (encode (.jmp y)).toNat = 0xC000 + y.toNat * 64) ∧
  (∀ (x : RegNum) (o : BitVec 9), (encode (.lea x o)).toNat = 0xE000 + x.toNat * 512 + o.toNat) ∧
  (∀ v : BitVec 8, (encode (.trap v)).toNat = 0xF000 + v.toNat)

/-- The offset field of a PC-relative instruction (R78): the masked difference from the next address; when the difference
fits in nine signed bits the engine reaches exactly the target, for both directions. -/
def Obligations.RelativeFieldReachesItsTarget : Prop :=
  ∀ a t : Word,
    ((relativeField a t).toNat : Int) = ((t.toNat : Int) - (a.toNat + 1)) % 512 ∧
    (-256 ≤ (t - (a + 1)).toInt → (t - (a + 1)).toInt ≤ 255 → a + 1 + sext9 (relativeField a t) = t)

/-- Sign extension (R66) for the widths 5, 6 and 9: the low bits of any 16-bit value, ones above when the top one of them
is 1; the result has the field's two's-complement value. -/
def Obligations.SignExtensionIsTwosComplement : Prop :=
  (∀ v : Word,
    (sext5 (imm5Field v)).toNat = (if v.getLsbD 4 then v.toNat % 2 ^ 5 + (65536 - 2 ^ 5) else v.toNat % 2 ^ 5) ∧
    (sext6 (off6Field v)).toNat = (if v.getLsbD 5 then v.toNat % 2 ^ 6 + (65536 - 2 ^ 6) else v.toNat % 2 ^ 6) ∧
    (sext9 (off9Field v)).toNat = (if v.getLsbD 8 then v.toNat % 2 ^ 9 + (65536 - 2 ^ 9) else v.toNat % 2 ^ 9)) ∧
  (∀ f : BitVec 5, (sext5 f).toInt = f.toInt) ∧
  (∀ f : BitVec 6, (sext6 f).toInt = f.toInt) ∧
  (∀ f : BitVec 9, (sext9 f).toInt = f.toInt)

/-- The reserved space (R72): the words 0x8000 to 0x8FFF and 0xD000 to 0xDFFF and no others; a run that executes one of
them is refused, by the step and by the instruction's meaning. -/
def Obligations.ReservedWordsAreRefused : Prop :=
  (∀ w : Word, (0x8000 ≤ w.toNat ∧ w.toNat ≤ 0x8FFF ↔ decodeWord w = .reserved8) ∧
    (0xD000 ≤ w.toNat ∧ w.toNat ≤ 0xDFFF ↔ decodeWord w = .reserved13)) ∧
  (∀ s, exec .reserved8 s = .refused (.reservedOpcode 8) ∧ exec .reserved13 s = .refused (.reservedOpcode 13)) ∧
  ∀ s : State, Running s →
    (0x8000 ≤ (s.memRead s.pc).toNat → (s.memRead s.pc).toNat ≤ 0x8FFF → step s = .refused (.reservedOpcode 8)) ∧
    (0xD000 ≤ (s.memRead s.pc).toNat → (s.memRead s.pc).toNat ≤ 0xDFFF → step s = .refused (.reservedOpcode 13))

/-! ## The cycle (spec 10_state.md) -/

/-- A step runs the decoded instruction (R27): the fetch, the increment modulo 65536, then the instruction. Under the
other policy than the ordinary one, see `StepAroundExec`. -/
def Obligations.StepIsFetchIncrementExecute : Prop :=
  ∀ s : State, Running s → s.cfg.pcZeroPolicy = .ordinary →
    step s = exec (decodeWord (s.memRead s.pc)) { s with ir := s.memRead s.pc, pc := s.pc + 1 }

/-- What the step has around `exec`, the model's own choices: a halted engine's step changes nothing (log 11); a waiting
engine's step executes its TRAP 0x20 again without a fetch (log 9); the PC-zero check stands at the end of a completed
instruction (log 7). -/
def Obligations.StepAroundExec : Prop :=
  (∀ s : State, s.halted = true → step s = .next s) ∧
  (∀ s : State, s.halted = false → s.waiting = true →
    step s = endStep (exec (.trap 0x20) { s with waiting := false })) ∧
  (∀ s : State, Running s →
    step s = endStep (exec (decodeWord (s.memRead s.pc)) { s with ir := s.memRead s.pc, pc := s.pc + 1 })) ∧
  (∀ t : State, endStep (.next t) =
    if t.cfg.pcZeroPolicy = .refuse ∧ t.pc = 0 ∧ t.halted = false ∧ t.waiting = false then .refused .pcZero
    else .next t) ∧
  ∀ r : Refusal, endStep (.refused r) = .refused r

/-- Effective addresses (20_memory.md R43): each is the exact sum of base and signed offset reduced modulo 65536, and the
pointer of LDI and STI is the cell content as it is. -/
def Obligations.EffectiveAddressesWrap : Prop :=
  ∀ (s : State) (y : RegNum) (off6 : BitVec 6) (off9 : BitVec 9),
    ((s.relAddr off9).toNat : Int) = ((s.pc.toNat : Int) + off9.toInt) % 65536 ∧
    ((s.baseAddr y off6).toNat : Int) = (((s.readReg y).toNat : Int) + off6.toInt) % 65536 ∧
    s.indirectAddr off9 = s.memRead (s.relAddr off9)

/-- The final PC of every instruction but the halting TRAP, after which the PC has no meaning (R28, U5). The next
state of a TRAP 0x20 that holds is the model's waiting state (log 9). -/
def Obligations.FinalPcFollowsTheTable : Prop :=
  ∀ (i : Instr) (s t : State), i ≠ .trap 0x25 → exec i s = .next t → t.pc = finalPc i s

/-! ## Control transfer (spec 40_control.md) -/

/-- BR (R90): words 0x0000 to 0x0FFF; taken exactly when CC and the mask have a common bit, to the PC plus the signed
offset modulo 65536; nothing else changes. -/
def Obligations.BranchTakenWhenCcMeetsMask : Prop :=
  (∀ w : Word, w &&& 0xF000 = 0x0000 → decodeWord w = .br (w.extractLsb' 9 3) (w.extractLsb' 0 9)) ∧
  ∀ (s : State) (x : CondBits) (off9 : BitVec 9), ∃ t, exec (.br x off9) s = .next t ∧
    ((∃ k, s.cc.getLsbD k = true ∧ x.getLsbD k = true) →
      (t.pc.toNat : Int) = ((s.pc.toNat : Int) + off9.toInt) % 65536) ∧
    (¬ (∃ k, s.cc.getLsbD k = true ∧ x.getLsbD k = true) → t.pc = s.pc) ∧
    OnlyPcAndRegsChanged [] s t

/-- JSR (R91): words 0x4000 to 0x4FFF, bits 11 to 9 not read; R7 takes the incremented PC, the PC moves by the signed
offset; nothing else changes. -/
def Obligations.JsrLinksAndJumps : Prop :=
  (∀ w : Word, w &&& 0xF000 = 0x4000 → decodeWord w = .jsr (w.extractLsb' 0 9)) ∧
  ∀ (s : State) (off9 : BitVec 9), ∃ t, exec (.jsr off9) s = .next t ∧
    t.readReg 7 = s.pc ∧
    (t.pc.toNat : Int) = ((s.pc.toNat : Int) + off9.toInt) % 65536 ∧
    OnlyPcAndRegsChanged [7] s t

/-- JMP (R92): words 0xC000 to 0xCFFF, bits 11 to 9 and 5 to 0 not read; the PC takes the register, whatever its value;
nothing else changes. -/
def Obligations.JmpTakesTheRegister : Prop :=
  (∀ w : Word, w &&& 0xF000 = 0xC000 → decodeWord w = .jmp (w.extractLsb' 6 3)) ∧
  ∀ (s : State) (y : RegNum), ∃ t, exec (.jmp y) s = .next t ∧ t.pc = s.readReg y ∧ OnlyPcAndRegsChanged [] s t

/-- A taken branch to itself is a hang, not a halt (R90 corner (d)): after any number of steps the engine is still at
that branch and not halted. The state in which the PC is 0x0000 under `PC_ZERO_POLICY = refuse` is left out (log 7). -/
def Obligations.TakenSelfBranchNeverEnds : Prop :=
  ∀ (s : State) (x : CondBits) (n : Nat), Running s → decodeWord (s.memRead s.pc) = .br x 0x1FF → s.cc &&& x ≠ 0 →
    (s.cfg.pcZeroPolicy = .ordinary ∨ s.pc ≠ 0) →
    ∃ t, Sys2Proof.core.run n s = .next t ∧ t.pc = s.pc ∧ t.halted = false ∧ SameMemoryExcept [] s t ∧ t.cc = s.cc

/-! ## Operate instructions (spec 41_operate.md) -/

/-- ADD, register form (R100). -/
def Obligations.AddRegisterForm : Prop :=
  (∀ w : Word, w &&& 0xF020 = 0x1000 →
    decodeWord w = .addReg (w.extractLsb' 9 3) (w.extractLsb' 6 3) (w.extractLsb' 0 3)) ∧
  ∀ (s : State) (x y r : RegNum), ∃ t, exec (.addReg x y r) s = .next t ∧
    (t.readReg x).toNat = ((s.readReg y).toNat + (s.readReg r).toNat) % 65536 ∧
    Classifies t.cc (t.readReg x) ∧ OnlyResultChanged x s t

/-- ADD, immediate form (R101). -/
def Obligations.AddImmediateForm : Prop :=
  (∀ w : Word, w &&& 0xF020 = 0x1020 →
    decodeWord w = .addImm (w.extractLsb' 9 3) (w.extractLsb' 6 3) (w.extractLsb' 0 5)) ∧
  ∀ (s : State) (x y : RegNum) (imm5 : BitVec 5), ∃ t, exec (.addImm x y imm5) s = .next t ∧
    ((t.readReg x).toNat : Int) = (((s.readReg y).toNat : Int) + imm5.toInt) % 65536 ∧
    Classifies t.cc (t.readReg x) ∧ OnlyResultChanged x s t

/-- AND, register form (R102). -/
def Obligations.AndRegisterForm : Prop :=
  (∀ w : Word, w &&& 0xF020 = 0x5000 →
    decodeWord w = .andReg (w.extractLsb' 9 3) (w.extractLsb' 6 3) (w.extractLsb' 0 3)) ∧
  ∀ (s : State) (x y r : RegNum), ∃ t, exec (.andReg x y r) s = .next t ∧
    (∀ k < 16, (t.readReg x).getLsbD k = ((s.readReg y).getLsbD k && (s.readReg r).getLsbD k)) ∧
    Classifies t.cc (t.readReg x) ∧ OnlyResultChanged x s t

/-- AND, immediate form (R103): bits above bit 4 meet the sign bit of the immediate. -/
def Obligations.AndImmediateForm : Prop :=
  (∀ w : Word, w &&& 0xF020 = 0x5020 →
    decodeWord w = .andImm (w.extractLsb' 9 3) (w.extractLsb' 6 3) (w.extractLsb' 0 5)) ∧
  ∀ (s : State) (x y : RegNum) (imm5 : BitVec 5), ∃ t, exec (.andImm x y imm5) s = .next t ∧
    (∀ k < 16, (t.readReg x).getLsbD k =
      ((s.readReg y).getLsbD k && (if k < 5 then imm5.getLsbD k else imm5.getLsbD 4))) ∧
    Classifies t.cc (t.readReg x) ∧ OnlyResultChanged x s t

/-- NOT (R104). -/
def Obligations.NotComplements : Prop :=
  (∀ w : Word, w &&& 0xF000 = 0x9000 → decodeWord w = .not (w.extractLsb' 9 3) (w.extractLsb' 6 3)) ∧
  ∀ (s : State) (x y : RegNum), ∃ t, exec (.not x y) s = .next t ∧
    (t.readReg x).toNat = 65535 - (s.readReg y).toNat ∧
    Classifies t.cc (t.readReg x) ∧ OnlyResultChanged x s t

/-- Subtraction by NOT, ADD #1, ADD (R106 (f)): the three instructions leave the difference modulo 65536, also for
`b = 0x8000`. -/
def Obligations.SubtractionByComplement : Prop :=
  ∀ (s : State) (d a b : RegNum), a ≠ b → ∃ s₁ s₂ t,
    exec (.not b b) s = .next s₁ ∧ exec (.addImm b b 1) s₁ = .next s₂ ∧ exec (.addReg d a b) s₂ = .next t ∧
    ((t.readReg d).toNat : Int) = (((s.readReg a).toNat : Int) - (s.readReg b).toNat) % 65536

/-! ## Data movement (spec 42_data_movement.md) -/

/-- LD (R110). -/
def Obligations.LdLoadsPcRelative : Prop :=
  (∀ w : Word, w &&& 0xF000 = 0x2000 → decodeWord w = .ld (w.extractLsb' 9 3) (w.extractLsb' 0 9)) ∧
  ∀ (s : State) (x : RegNum) (off9 : BitVec 9), ∃ t, exec (.ld x off9) s = .next t ∧
    t.readReg x = s.memRead (s.pc + sext9 off9) ∧ Classifies t.cc (t.readReg x) ∧ OnlyResultChanged x s t

/-- ST (R111). The stored cell reads as the register in a memory in canonical form, an invariant of the machine. -/
def Obligations.StStoresPcRelative : Prop :=
  (∀ w : Word, w &&& 0xF000 = 0x3000 → decodeWord w = .st (w.extractLsb' 9 3) (w.extractLsb' 0 9)) ∧
  ∀ (s : State) (x : RegNum) (off9 : BitVec 9), ∃ t, exec (.st x off9) s = .next t ∧
    (s.mem.wf → t.memRead (s.pc + sext9 off9) = s.readReg x) ∧ OnlyCellsChanged [s.pc + sext9 off9] s t

/-- LDR (R112): the address uses the base register's old value, also when it is the destination. -/
def Obligations.LdrLoadsBasePlusOffset : Prop :=
  (∀ w : Word, w &&& 0xF000 = 0x6000 →
    decodeWord w = .ldr (w.extractLsb' 9 3) (w.extractLsb' 6 3) (w.extractLsb' 0 6)) ∧
  ∀ (s : State) (x y : RegNum) (off6 : BitVec 6), ∃ t, exec (.ldr x y off6) s = .next t ∧
    t.readReg x = s.memRead (s.readReg y + sext6 off6) ∧ Classifies t.cc (t.readReg x) ∧ OnlyResultChanged x s t

/-- STR (R113). -/
def Obligations.StrStoresBasePlusOffset : Prop :=
  (∀ w : Word, w &&& 0xF000 = 0x7000 →
    decodeWord w = .str (w.extractLsb' 9 3) (w.extractLsb' 6 3) (w.extractLsb' 0 6)) ∧
  ∀ (s : State) (x y : RegNum) (off6 : BitVec 6), ∃ t, exec (.str x y off6) s = .next t ∧
    (s.mem.wf → t.memRead (s.readReg y + sext6 off6) = s.readReg x) ∧
    OnlyCellsChanged [s.readReg y + sext6 off6] s t

/-- LDI (R114): the flags follow the loaded value, not the pointer. -/
def Obligations.LdiLoadsThroughPointer : Prop :=
  (∀ w : Word, w &&& 0xF000 = 0xA000 → decodeWord w = .ldi (w.extractLsb' 9 3) (w.extractLsb' 0 9)) ∧
  ∀ (s : State) (x : RegNum) (off9 : BitVec 9), ∃ t, exec (.ldi x off9) s = .next t ∧
    t.readReg x = s.memRead (s.memRead (s.pc + sext9 off9)) ∧ Classifies t.cc (t.readReg x) ∧
    OnlyResultChanged x s t

/-- STI (R115): the pointer is the one read before the write. -/
def Obligations.StiStoresThroughPointer : Prop :=
  (∀ w : Word, w &&& 0xF000 = 0xB000 → decodeWord w = .sti (w.extractLsb' 9 3) (w.extractLsb' 0 9)) ∧
  ∀ (s : State) (x : RegNum) (off9 : BitVec 9), ∃ t, exec (.sti x off9) s = .next t ∧
    (s.mem.wf → t.memRead (s.memRead (s.pc + sext9 off9)) = s.readReg x) ∧
    OnlyCellsChanged [s.memRead (s.pc + sext9 off9)] s t

/-- LEA (R116): the register takes the address itself, and CC classifies it. -/
def Obligations.LeaLoadsTheAddress : Prop :=
  (∀ w : Word, w &&& 0xF000 = 0xE000 → decodeWord w = .lea (w.extractLsb' 9 3) (w.extractLsb' 0 9)) ∧
  ∀ (s : State) (x : RegNum) (off9 : BitVec 9), ∃ t, exec (.lea x off9) s = .next t ∧
    ((t.readReg x).toNat : Int) = ((s.pc.toNat : Int) + off9.toInt) % 65536 ∧
    Classifies t.cc (t.readReg x) ∧ OnlyResultChanged x s t

/-- A store is seen by the very next fetch (20_memory.md R50): when an instruction has stored to the cell the PC then
names, the next step executes the stored word. -/
def Obligations.StoreIsSeenByTheNextFetch : Prop :=
  ∀ (i : Instr) (s t : State) (a : Word) (x : RegNum), store i s = some (a, x) → s.mem.wf → exec i s = .next t →
    t.pc = a → Running t →
    step t = endStep (exec (decodeWord (s.readReg x)) { t with ir := s.readReg x, pc := t.pc + 1 })

/-! ## TRAP (spec 43_trap.md) -/

/-- The encoding and the limits of TRAP (R130, R131): any vector completes; it writes no register but R0, no memory, not
CC, redirects the PC nowhere; it reads no register but R0 and no memory; and the vectors outside 0x20, 0x21 and 0x25
change nothing at all (R136). The next state in which TRAP 0x20 holds, with neither a byte nor the end of input there, is
the model's: the spec has that step not complete (R132), and the model answers its waiting state (log 9). -/
def Obligations.TrapTouchesOnlyItsService : Prop :=
  (∀ w : Word, w &&& 0xF000 = 0xF000 → decodeWord w = .trap (w.extractLsb' 0 8)) ∧
  ∀ (v : BitVec 8) (s : State),
    (∃ t, exec (.trap v) s = .next t ∧ SameRegsExcept [0] s t ∧ t.mem = s.mem ∧ t.cc = s.cc ∧ t.ir = s.ir ∧
      t.cfg = s.cfg ∧ (v ≠ 0x25 → t.pc = s.pc) ∧ (v ∉ [0x20, 0x21, 0x25] → t = s)) ∧
    (∀ m, exec (.trap v) { s with mem := m } = mapNext (fun t => { t with mem := m }) (exec (.trap v) s)) ∧
    (∀ k u, k ≠ 0 → exec (.trap v) (s.writeReg k u) = mapNext (fun t => t.writeReg k u) (exec (.trap v) s))

/-- TRAP 0x20 with a byte there (R132): R0 takes the byte zero-extended, one byte is consumed, nothing else changes. -/
def Obligations.TrapInReadsAByte : Prop :=
  ∀ (s : State) (b : Byte), ByteReady s b → ∃ t, exec (.trap 0x20) s = .next t ∧
    (t.readReg 0).toNat = b.toNat ∧ t.consumed = s.consumed + 1 ∧
    SameRegsExcept [0] s t ∧ SameMemoryExcept [] s t ∧ t.cc = s.cc ∧ t.pc = s.pc ∧ SameControl s t ∧
    t.input = s.input ∧ t.inputClosed = s.inputClosed ∧ t.endReached = s.endReached ∧ t.output = s.output

/-- TRAP 0x20 at the end of input (R133): R0 takes `EOF_SENTINEL`, whatever its value, the engine neither halts nor
waits, and nothing is consumed; and from a state that has reached the end, every later state of the run has too. The
spec's own value of the parameter is 0xFFFF, which no byte gives. -/
def Obligations.EndOfInputGivesTheSentinelForEver : Prop :=
  (Config.standard.eofSentinel = 0xFFFF ∧ ∀ b : Byte, zext8 b ≠ Config.standard.eofSentinel) ∧
  (∀ s : State, InputExhausted s → ∃ t, exec (.trap 0x20) s = .next t ∧
    t.readReg 0 = s.cfg.eofSentinel ∧ t.endReached = true ∧ t.consumed = s.consumed ∧
    SameRegsExcept [0] s t ∧ SameMemoryExcept [] s t ∧ t.cc = s.cc ∧ t.pc = s.pc ∧ SameControl s t ∧
    t.input = s.input ∧ t.inputClosed = s.inputClosed ∧ t.output = s.output) ∧
  ∀ (n : Nat) (s t : State), s.endReached = true → Sys2Proof.core.run n s = .next t →
    t.endReached = true ∧ t.cfg = s.cfg ∧ ∃ u, exec (.trap 0x20) t = .next u ∧ u.readReg 0 = s.cfg.eofSentinel

/-- The wait for input (60_exceptions.md R162, R137): with neither a byte nor the end of input, TRAP 0x20 changes nothing
but the run state; the wait goes on for ever while the environment delivers nothing, under either `PC_ZERO_POLICY`; the
delivery of a byte, or of the end of input, lets the very next step complete the instruction. That the hold is a state
whose steps repeat it is the model's choice (log 9). That the PC is checked when the instruction completes, and not while
the engine waits, is the model's reading (log 7): under `refuse` with the PC at 0x0000 the delivery ends in that refusal. -/
def Obligations.WaitEndsOnlyByDelivery : Prop :=
  (∀ s : State, InputPending s → exec (.trap 0x20) s = .next { s with waiting := true }) ∧
  ∀ s : State, s.halted = false → s.waiting = true → InputPending s →
    (∀ n, Sys2Proof.core.run n s = .next s) ∧
    (s.cfg.pcZeroPolicy = .ordinary ∨ s.pc ≠ 0 →
      (s.consumed = s.input.length → ∀ b, ∃ t, step (s.deliver b) = .next t ∧ t.waiting = false ∧
        (t.readReg 0).toNat = b.toNat ∧ t.consumed = s.consumed + 1 ∧ SameRegsExcept [0] s t ∧ t.mem = s.mem ∧
        t.cc = s.cc ∧ t.pc = s.pc ∧ t.halted = false) ∧
      (∃ t, step s.endInput = .next t ∧ t.waiting = false ∧ t.readReg 0 = s.cfg.eofSentinel ∧
        SameRegsExcept [0] s t ∧ t.mem = s.mem ∧ t.cc = s.cc ∧ t.pc = s.pc ∧ t.halted = false)) ∧
    (s.cfg.pcZeroPolicy = .refuse → s.pc = 0 →
      (s.consumed = s.input.length → ∀ b, step (s.deliver b) = .refused .pcZero) ∧
      step s.endInput = .refused .pcZero)

/-- TRAP 0x21 (R134): the low byte of R0 is appended to the output at once; nothing else changes. -/
def Obligations.TrapOutAppendsTheLowByte : Prop :=
  ∀ s : State, ∃ t b, exec (.trap 0x21) s = .next t ∧ b.toNat = (s.readReg 0).toNat % 256 ∧
    t = { s with output := s.output ++ [b] }

/-- TRAP 0x25 (R135): the latch is set, registers, CC, memory and console keep their values, and no further step does
anything (log 11). Nothing is said of the PC, which has no meaning after a halt (log 13). -/
def Obligations.TrapHaltStopsTheEngine : Prop :=
  ∀ s : State, ∃ t, exec (.trap 0x25) s = .next t ∧ t.halted = true ∧ t.regs = s.regs ∧ t.cc = s.cc ∧
    t.mem = s.mem ∧ SameConsole s t ∧ t.cfg = s.cfg ∧ t.waiting = s.waiting ∧ t.ir = s.ir ∧ step t = .next t

/-- The encodings with no effect (40_control.md R90 corner (a), 43_trap.md R136; listed in R73): a running engine that fetches BR with mask 0, or TRAP with a vector outside
the three services, only moves on to the next address. A PC that becomes 0x0000 under `PC_ZERO_POLICY = refuse` is left
out (log 7). -/
def Obligations.NoEffectEncodingsOnlyAdvance : Prop :=
  ∀ s : State, Running s → (s.cfg.pcZeroPolicy = .ordinary ∨ s.pc + 1 ≠ 0) →
    ((s.memRead s.pc).toNat < 512 ∨
      ((s.memRead s.pc).extractLsb' 12 4 = 15 ∧ (s.memRead s.pc).extractLsb' 0 8 ∉ [0x20#8, 0x21#8, 0x25#8])) →
    step s = .next { s with ir := s.memRead s.pc, pc := s.pc + 1 }

/-! ## Whole-machine rules -/

/-- The run latch (10_state.md R30): while it is set nothing changes, for any number of steps (log 11); from a running state it is
set exactly by a step that executes TRAP 0x25; a launch clears it. -/
def Obligations.HaltedIsSetOnlyByTrap25 : Prop :=
  (∀ (s : State) (n : Nat), s.halted = true → Sys2Proof.core.run n s = .next s) ∧
  (∀ s t : State, s.halted = false → step s = .next t →
    (t.halted = true ↔ s.waiting = false ∧ decodeWord (s.memRead s.pc) = .trap 0x25)) ∧
  (∀ l t, boot l = .next t → t.halted = false)

/-- No encoding but a reserved one stops a step (30_encoding.md R73, 60_exceptions.md R150): under the ordinary policy a
step answers a next state exactly when it does not execute a reserved word; a refusal is one of a reserved opcode, or of
the PC-zero policy when that is set (log 7). Two of these next states are the model's: that of a halted engine, whose
step the spec has not performed (log 11), and that of a TRAP 0x20 that holds, whose step the spec has not complete
(log 9). -/
def Obligations.StepStopsOnlyOnReservedWords : Prop :=
  ∀ s : State,
    (s.cfg.pcZeroPolicy = .ordinary →
      ((∃ t, step s = .next t) ↔
        ¬ (Running s ∧ (opcField (s.memRead s.pc) = 8 ∨ opcField (s.memRead s.pc) = 13)))) ∧
    (∀ r, step s = .refused r →
      r = .reservedOpcode 8 ∨ r = .reservedOpcode 13 ∨ (r = .pcZero ∧ s.cfg.pcZeroPolicy = .refuse))

/-- `PC_ZERO_POLICY` (D6; 70_reset_and_hazards.md R183): under `refuse` no completed step leaves a running engine at
0x0000, and a JMP there is refused; under `ordinary` no step of any instruction is refused for it, and a JMP there
completes. Where the check stands is the model's reading (log 7). -/
def Obligations.PcZeroPolicyDecidesAddressZero : Prop :=
  (∀ s t : State, s.cfg.pcZeroPolicy = .refuse → s.halted = false → step s = .next t → t.pc = 0 →
    t.halted = true ∨ t.waiting = true) ∧
  (∀ s : State, s.cfg.pcZeroPolicy = .ordinary → step s ≠ .refused .pcZero) ∧
  (∀ (s : State) (y : RegNum), Running s → decodeWord (s.memRead s.pc) = .jmp y → s.readReg y = 0 →
    (s.cfg.pcZeroPolicy = .refuse → step s = .refused .pcZero) ∧
    (s.cfg.pcZeroPolicy = .ordinary → ∃ t, step s = .next t ∧ t.pc = 0 ∧ t.halted = false))

/-- The classification of a result (10_state.md R24): each flag-setting instruction leaves in CC the class of the value it
wrote, and exactly one bit of CC is 1. -/
def Obligations.FlagsClassifyTheWrittenResult : Prop :=
  ∀ (i : Instr) (x : RegNum) (s : State), flagDest i = some x → ∃ t, exec i s = .next t ∧
    Classifies t.cc (t.readReg x) ∧ OneHot t.cc

/-- CC has seven writers and one reader (R25): any other instruction leaves it unchanged; no instruction but BR depends on
it; a launch leaves `CC_RESET` in it; and once it has exactly one bit set, every later step keeps that. -/
def Obligations.CcHasSevenWritersAndOneReader : Prop :=
  (∀ (i : Instr) (s t : State), flagDest i = none → exec i s = .next t → t.cc = s.cc) ∧
  (∀ (i : Instr) (s t : State), flagDest i ≠ none → exec i s = .next t → OneHot t.cc) ∧
  (∀ (i : Instr) (s : State) (c : CondBits), (∀ x off9, i ≠ .br x off9) →
    exec i { s with cc := c } =
      mapNext (fun t => if flagDest i = none then { t with cc := c } else t) (exec i s)) ∧
  (∀ l t, boot l = .next t → t.cc = l.ccReset) ∧
  (∀ s t : State, OneHot s.cc → step s = .next t → OneHot t.cc)

/-- The register access table is complete (10_state.md R22): an instruction changes no register outside its written ones;
a register it neither reads nor writes has no influence; the old value of one it writes and does not read is lost; and of
R0, TRAP 0x21 reads the low byte only. -/
def Obligations.RegisterAccessTableIsComplete : Prop :=
  (∀ (s : State) (high : Byte),
    exec (.trap 0x21) (s.writeReg 0 (wordOfBytes high (lowByte (s.readReg 0)))) =
      mapNext (fun t => t.writeReg 0 (wordOfBytes high (lowByte (s.readReg 0)))) (exec (.trap 0x21) s)) ∧
  ∀ (i : Instr) (s : State),
    (∀ t, exec i s = .next t → SameRegsExcept (regsWritten i) s t) ∧
    (∀ k v, k ∉ regsRead i → k ∉ regsWritten i →
      exec i (s.writeReg k v) = mapNext (fun t => t.writeReg k v) (exec i s)) ∧
    (∀ k v t, k ∉ regsRead i → k ∈ regsWritten i → exec i s = .next t → s.waiting = false → t.waiting = false →
      exec i (s.writeReg k v) = .next t)

/-- The memory access table is complete (20_memory.md section 2): an instruction changes no cell outside its written one;
a cell it neither reads nor writes has no influence; the old value of one it writes and does not read is lost. The
memory is in canonical form, an invariant of the machine. -/
def Obligations.MemoryAccessTableIsComplete : Prop :=
  ∀ (i : Instr) (s : State), s.mem.wf →
    (∀ t, exec i s = .next t → SameMemoryExcept (cellsWritten i s) s t) ∧
    (∀ a v, a ∉ cellsRead i s → a ∉ cellsWritten i s →
      exec i (s.memWrite a v) = mapNext (fun t => t.memWrite a v) (exec i s)) ∧
    (∀ a v, a ∉ cellsRead i s → a ∈ cellsWritten i s → exec i (s.memWrite a v) = exec i s)

/-- The console output (10_state.md R33): a step that executes TRAP 0x21 extends it by the low byte of R0, any other step
leaves it alone; and what it held before has no influence on the step. It is initially empty. -/
def Obligations.OutputExtendedOnlyByTrap21 : Prop :=
  (∀ s : State, ∃ bytes : List Byte,
    (Running s ∧ decodeWord (s.memRead s.pc) = .trap 0x21 → bytes = [lowByte (s.readReg 0)]) ∧
    (¬ (Running s ∧ decodeWord (s.memRead s.pc) = .trap 0x21) → bytes = []) ∧
    ∀ o, step { s with output := o } = mapNext (fun t => { t with output := o ++ bytes }) (step s)) ∧
  (∀ l t, boot l = .next t → t.output = [])

/-- The console input (43_trap.md R137): the engine never changes what the environment delivered; a byte is consumed only
by the TRAP 0x20 that returns it; what lies beyond the next byte has no influence on a step; and TRAP 0x20 with neither a
byte nor the end of input holds, in the model's waiting state (log 9), which is the model's choice under `refuse` at a PC
of 0x0000 too, since the PC is checked only when the instruction completes (log 7). -/
def Obligations.InputIsConsumedOneByteAtATime : Prop :=
  (∀ s t : State, step s = .next t → t.input = s.input ∧ t.inputClosed = s.inputClosed) ∧
  (∀ s t : State, step s = .next t → t.consumed = s.consumed ∨
    (InTrapIn s ∧ t.consumed = s.consumed + 1 ∧ ∃ b, s.input[s.consumed]? = some b ∧ t.readReg 0 = zext8 b)) ∧
  (∀ (s : State) (later : List Byte), (InTrapIn s → s.consumed < s.input.length ∨ s.endReached = true) →
    step { s with input := s.input ++ later } =
      mapNext (fun t => { t with input := t.input ++ later }) (step s)) ∧
  (∀ s : State, Running s → decodeWord (s.memRead s.pc) = .trap 0x20 → InputPending s →
    step s = .next { s with ir := s.memRead s.pc, pc := s.pc + 1, waiting := true })

/-- The parameters of a run and the input delivered by the environment are never changed by the engine (R36), over any
number of steps. -/
def Obligations.RunParametersNeverChange : Prop :=
  ∀ (n : Nat) (s t : State), Sys2Proof.core.run n s = .next t →
    t.cfg = s.cfg ∧ t.input = s.input ∧ t.inputClosed = s.inputClosed

/-- The invariant of a run is kept by every step, from every state that meets it. The memory's canonical form and the
states of the console and of the wait are the model's representation (log 9, 10). -/
def Obligations.InvariantKeptByEveryStep : Prop :=
  ∀ s t : State, Inv s → step s = .next t → Inv t

/-- The invariant holds right after reset, with the model's own reset values (log 1, 2, 3). -/
def Obligations.InvariantHoldsAtReset : Prop := Inv State.reset

/-- The invariant holds after every launch from a memory in canonical form, the model's representation (log 9, 10). -/
def Obligations.InvariantHoldsAfterEveryLaunch : Prop :=
  ∀ l t, l.memInit.wf → boot l = .next t → Inv t

/-- What the environment may do between steps keeps the invariant; its form is the model's (log 9). -/
def Obligations.InvariantKeptByTheEnvironment : Prop :=
  ∀ (s : State) (b : Byte), Inv s → Inv (s.deliver b) ∧ Inv s.endInput

/-! ## Reset and launch (spec 10_state.md R35, 70_reset_and_hazards.md) -/

/-- The state after reset and image load (R35, R172): pc at `ORIGIN`, not halted, registers and CC the free launch values,
the image's big-endian words from `ORIGIN` upward, every other cell its free value, no byte consumed, output empty. -/
def Obligations.LaunchEstablishesTheResetState : Prop :=
  ∀ l : Launch, l.cfg.origin ≠ 0 → l.image.length / 2 ≤ 65536 - l.cfg.origin.toNat → ∃ t, boot l = .next t ∧
    t.pc = l.cfg.origin ∧ t.halted = false ∧ t.waiting = false ∧
    (∀ i : RegNum, t.readReg i = l.regReset[i.toNat]'(by omega)) ∧ t.cc = l.ccReset ∧
    t.consumed = 0 ∧ t.endReached = false ∧ t.output = [] ∧ t.cfg = l.cfg ∧
    (l.memInit.wf → ∀ (k : Nat) (h : 2 * k + 1 < l.image.length),
      (t.memRead (l.cfg.origin + BitVec.ofNat 16 k)).toNat = (l.image[2 * k]).toNat * 256 + (l.image[2 * k + 1]).toNat) ∧
    (∀ a : Word, a.toNat < l.cfg.origin.toNat ∨ l.cfg.origin.toNat + l.image.length / 2 ≤ a.toNat →
      t.memRead a = l.memInit.read a.toNat)

/-- The corners of the load (R173): a trailing single byte changes nothing, an image of more than `65536 - ORIGIN` words is
refused. An origin of 0x0000 is refused (R6, log 15). -/
def Obligations.LaunchCorners : Prop :=
  (∀ (l : Launch) (b : Byte), l.image.length % 2 = 0 → boot { l with image := l.image ++ [b] } = boot l) ∧
  (∀ l : Launch, l.cfg.origin ≠ 0 → 65536 - l.cfg.origin.toNat < l.image.length / 2 →
    boot l = .refused .imageTooLong) ∧
  (∀ l : Launch, l.cfg.origin = 0 → boot l = .refused .originZero)

/-- `State.reset` is the launch with the spec's own parameters, nothing loaded, nothing delivered, and the model's own
values for what the spec leaves free (log 1, 2, 3, 9: DESIGN CHOICE). -/
def Obligations.ResetIsTheLaunchOfNothing : Prop :=
  boot { cfg := Config.standard, regReset := Vector.replicate 8 regFill, ccReset := ccFill, memInit := [], image := [],
         input := [], inputClosed := false } = .next State.reset
end

