-- ==== Sys2Proof/Laws/Decode.lean ====
section
/-! SUPPORT. The laws of reading a word from two bytes. -/

namespace Sys2Proof

/-- A word laid out high byte first is read back. -/
theorem wordOfBytes_halves (w : Word) : wordOfBytes (w.extractLsb' 8 8) (w.extractLsb' 0 8) = w := by
  refine BitVec.eq_of_getLsbD_eq fun k hk => ?_
  rw [wordOfBytes, BitVec.getLsbD_append]
  by_cases h : k < 8
  · simp [h]
  · rw [if_neg h, BitVec.getLsbD_extractLsb', Nat.add_sub_cancel' (by omega)]
    simp; omega

/-- The value of a word read from two bytes. -/
theorem wordOfBytes_toNat (hi lo : Byte) : (wordOfBytes hi lo).toNat = hi.toNat * 256 + lo.toNat := by
  rw [wordOfBytes, BitVec.toNat_append, ← Nat.shiftLeft_add_eq_or_of_lt lo.isLt, Nat.shiftLeft_eq]

/-- The table's word is decoded as the engine decodes a fetched word; there is always an instruction. -/
theorem decodeTableWord_eq (n w : Nat) : decodeTableWord n w = some (decodeWord (tableWord n w)) := by
  simp only [decodeTableWord, decodeBytes, wordOfBytes_halves]

end Sys2Proof
end

