-- ==== Sys2Proof/Laws/Memory.lean ====
section
/-! SUPPORT. The laws of the memory: read after write, and that a write keeps the canonical form. -/

namespace Sys2Proof.Machine

/-- A write to one cell leaves every other cell alone, in any memory. -/
theorem Memory.read_write_other (m : Memory) (a b : Nat) (v : Word) (h : b ≠ a) :
    (m.write a v).read b = m.read b := by
  induction m with
  | nil => simp only [Memory.write]; split <;> simp [Memory.read, h]
  | cons c m ih =>
    obtain ⟨k, w⟩ := c
    simp only [Memory.write]
    split
    · split <;> simp [Memory.read, h]
    · split
      · subst k; split <;> simp [Memory.read, h]
      · simp [Memory.read, ih]

/-- A cell below every listed cell reads as an unlisted one. -/
theorem Memory.read_below (m : Memory) (a : Nat) (h : ∀ c ∈ m, a < c.1) : m.read a = memFill := by
  induction m with
  | nil => rfl
  | cons c m ih =>
    obtain ⟨k, w⟩ := c
    have hk : a < k := h (k, w) (by simp)
    simp only [Memory.read, if_neg (Nat.ne_of_lt hk)]
    exact ih fun d hd => h d (by simp [hd])

/-- In a canonical memory a cell reads as the value last written to it. -/
theorem Memory.read_write_same (m : Memory) (hm : m.wf) (a : Nat) (v : Word) : (m.write a v).read a = v := by
  induction m with
  | nil => simp only [Memory.write]; split <;> simp [Memory.read, *]
  | cons c m ih =>
    obtain ⟨k, w⟩ := c
    obtain ⟨hp, hc⟩ := hm
    obtain ⟨hk, hp⟩ := List.pairwise_cons.1 hp
    simp only [Memory.write]
    split
    · rename_i hlt
      split
      · rename_i hv
        rw [hv]
        refine Memory.read_below _ _ fun d hd => ?_
        rcases List.mem_cons.1 hd with rfl | hd
        · exact hlt
        · exact Nat.lt_trans hlt (hk d hd)
      · simp [Memory.read]
    · split
      · subst k
        split
        · rename_i hv
          rw [hv]
          exact Memory.read_below _ _ fun d hd => hk d hd
        · simp [Memory.read]
      · rename_i hne
        simp only [Memory.read, if_neg hne]
        exact ih ⟨hp, fun d hd => hc d (by simp [hd])⟩

/-- The entries of a written memory are entries of the old one or the new entry. -/
theorem Memory.mem_write (m : Memory) (a : Nat) (v : Word) (d : Nat × Word) (hd : d ∈ m.write a v) :
    d ∈ m ∨ (d = (a, v) ∧ v ≠ memFill) := by
  induction m with
  | nil => simp only [Memory.write] at hd; split at hd <;> simp_all
  | cons c m ih =>
    obtain ⟨k, w⟩ := c
    simp only [Memory.write] at hd
    split at hd
    · split at hd
      · exact .inl hd
      · rcases List.mem_cons.1 hd with rfl | hd
        · rename_i hv; exact .inr ⟨rfl, hv⟩
        · exact .inl hd
    · split at hd
      · subst k
        split at hd
        · exact .inl (List.mem_cons_of_mem _ hd)
        · rcases List.mem_cons.1 hd with rfl | hd
          · rename_i hv; exact .inr ⟨rfl, hv⟩
          · exact .inl (List.mem_cons_of_mem _ hd)
      · rcases List.mem_cons.1 hd with rfl | hd
        · simp
        · rcases ih hd with h | h <;> simp [h]

/-- Every write keeps the canonical form. -/
theorem Memory.write_wf (m : Memory) (hm : m.wf) (a : Nat) (v : Word) (ha : a < 65536) : (m.write a v).wf := by
  refine ⟨?_, fun d hd => ?_⟩
  · induction m with
    | nil => simp only [Memory.write]; split <;> simp
    | cons c m ih =>
      obtain ⟨k, w⟩ := c
      obtain ⟨hall, hc⟩ := hm
      obtain ⟨hk, hp⟩ := List.pairwise_cons.1 hall
      have hm : Memory.wf m := ⟨hp, fun d hd => hc d (by simp [hd])⟩
      simp only [Memory.write]
      split
      · rename_i hlt
        split
        · exact hall
        · refine List.pairwise_cons.2 ⟨fun d hd => ?_, hall⟩
          rcases List.mem_cons.1 hd with rfl | hd
          · exact hlt
          · exact Nat.lt_trans hlt (hk d hd)
      · split
        · subst k; split
          · exact hp
          · exact List.pairwise_cons.2 ⟨hk, hp⟩
        · rename_i h1 h2
          refine List.pairwise_cons.2 ⟨fun d hd => ?_, ih hm⟩
          rcases Memory.mem_write m a v d hd with hd | ⟨rfl, -⟩
          · exact hk d hd
          · exact Nat.lt_of_le_of_ne (Nat.le_of_not_lt h1) (fun e => h2 e.symm)
  · rcases Memory.mem_write m a v d hd with hd | ⟨rfl, hv⟩
    · exact hm.2 d hd
    · exact ⟨ha, hv⟩

/-- Two canonical memories that read alike are the same list. -/
theorem Memory.ext_read (m n : Memory) (hm : m.wf) (hn : n.wf) (h : ∀ a, m.read a = n.read a) : m = n := by
  induction m generalizing n with
  | nil =>
    cases n with
    | nil => rfl
    | cons d n => exact absurd (by simpa [Memory.read] using (h d.1).symm) (hn.2 d (by simp)).2
  | cons c m ih =>
    obtain ⟨k, w⟩ := c
    obtain ⟨hkm, hpm⟩ := List.pairwise_cons.1 hm.1
    have hw := (hm.2 (k, w) (by simp)).2
    cases n with
    | nil => exact absurd (by simpa [Memory.read] using h k) hw
    | cons d n =>
      obtain ⟨l, u⟩ := d
      obtain ⟨hln, hpn⟩ := List.pairwise_cons.1 hn.1
      have hu := (hn.2 (l, u) (by simp)).2
      have below_n : ∀ a, a < l → Memory.read ((l, u) :: n) a = memFill := fun a ha =>
        Memory.read_below _ _ fun d hd => by
          rcases List.mem_cons.1 hd with rfl | hd
          · exact ha
          · exact Nat.lt_trans ha (hln d hd)
      have below_m : ∀ a, a < k → Memory.read ((k, w) :: m) a = memFill := fun a ha =>
        Memory.read_below _ _ fun d hd => by
          rcases List.mem_cons.1 hd with rfl | hd
          · exact ha
          · exact Nat.lt_trans ha (hkm d hd)
      have at_k : Memory.read ((k, w) :: m) k = w := by simp [Memory.read]
      have at_l : Memory.read ((l, u) :: n) l = u := by simp [Memory.read]
      have hkl : k = l := by
        rcases Nat.lt_trichotomy k l with hlt | heq | hgt
        · exact absurd (at_k.symm.trans ((h k).trans (below_n k hlt))) hw
        · exact heq
        · exact absurd (at_l.symm.trans ((h l).symm.trans (below_m l hgt))) hu
      subst hkl
      have hwu : w = u := at_k.symm.trans ((h k).trans at_l)
      subst hwu
      have rest : m = n := by
        refine ih n ⟨hpm, fun d hd => hm.2 d (by simp [hd])⟩ ⟨hpn, fun d hd => hn.2 d (by simp [hd])⟩ fun a => ?_
        by_cases ha : a = k
        · subst ha
          rw [Memory.read_below m a hkm, Memory.read_below n a hln]
        · simpa [Memory.read, ha] using h a
      rw [rest]

/-- In canonical memories, writes to two different cells commute. -/
theorem Memory.write_comm (m : Memory) (hm : m.wf) (a b : Nat) (v w : Word) (ha : a < 65536) (hb : b < 65536)
    (hab : a ≠ b) : (m.write a v).write b w = (m.write b w).write a v := by
  have hma := m.write_wf hm a v ha
  have hmb := m.write_wf hm b w hb
  refine Memory.ext_read _ _ (Memory.write_wf _ hma b w hb) (Memory.write_wf _ hmb a v ha) fun c => ?_
  by_cases hca : c = a
  · subst hca
    rw [Memory.read_write_other _ _ _ _ hab, Memory.read_write_same _ hm, Memory.read_write_same _ hmb]
  · by_cases hcb : c = b
    · subst hcb
      rw [Memory.read_write_same _ hma, Memory.read_write_other _ _ _ _ hca, Memory.read_write_same _ hm]
    · rw [Memory.read_write_other _ _ _ _ hcb, Memory.read_write_other _ _ _ _ hca,
        Memory.read_write_other _ _ _ _ hca, Memory.read_write_other _ _ _ _ hcb]

/-- In a canonical memory, the second of two writes to one cell is the one that counts. -/
theorem Memory.write_write (m : Memory) (hm : m.wf) (a : Nat) (v w : Word) (ha : a < 65536) :
    (m.write a v).write a w = m.write a w := by
  have hma := m.write_wf hm a v ha
  refine Memory.ext_read _ _ (Memory.write_wf _ hma a w ha) (m.write_wf hm a w ha) fun c => ?_
  by_cases hc : c = a
  · subst hc
    rw [Memory.read_write_same _ hma, Memory.read_write_same _ hm]
  · rw [Memory.read_write_other _ _ _ _ hc, Memory.read_write_other _ _ _ _ hc, Memory.read_write_other _ _ _ _ hc]

end Sys2Proof.Machine
end

