-- ==== Sys2Proof/Laws/State.lean ====
section
/-! SUPPORT. One lemma per field per state update, each true by rfl, so that no later proof unfolds an update. -/

namespace Sys2Proof.Machine

/-! ## `State.writeReg` -/

@[simp] theorem State.writeReg_regs (s : State) (i : RegNum) (v : Word) : (s.writeReg i v).regs = s.regs.set i.toNat v (by omega) := rfl
@[simp] theorem State.writeReg_cc (s : State) (i : RegNum) (v : Word) : (s.writeReg i v).cc = s.cc := rfl
@[simp] theorem State.writeReg_pc (s : State) (i : RegNum) (v : Word) : (s.writeReg i v).pc = s.pc := rfl
@[simp] theorem State.writeReg_ir (s : State) (i : RegNum) (v : Word) : (s.writeReg i v).ir = s.ir := rfl
@[simp] theorem State.writeReg_halted (s : State) (i : RegNum) (v : Word) : (s.writeReg i v).halted = s.halted := rfl
@[simp] theorem State.writeReg_waiting (s : State) (i : RegNum) (v : Word) : (s.writeReg i v).waiting = s.waiting := rfl
@[simp] theorem State.writeReg_mem (s : State) (i : RegNum) (v : Word) : (s.writeReg i v).mem = s.mem := rfl
@[simp] theorem State.writeReg_input (s : State) (i : RegNum) (v : Word) : (s.writeReg i v).input = s.input := rfl
@[simp] theorem State.writeReg_inputClosed (s : State) (i : RegNum) (v : Word) : (s.writeReg i v).inputClosed = s.inputClosed := rfl
@[simp] theorem State.writeReg_consumed (s : State) (i : RegNum) (v : Word) : (s.writeReg i v).consumed = s.consumed := rfl
@[simp] theorem State.writeReg_endReached (s : State) (i : RegNum) (v : Word) : (s.writeReg i v).endReached = s.endReached := rfl
@[simp] theorem State.writeReg_output (s : State) (i : RegNum) (v : Word) : (s.writeReg i v).output = s.output := rfl
@[simp] theorem State.writeReg_cfg (s : State) (i : RegNum) (v : Word) : (s.writeReg i v).cfg = s.cfg := rfl
@[simp] theorem State.writeReg_memRead (s : State) (i : RegNum) (v : Word) (c : Word) : (s.writeReg i v).memRead c = s.memRead c := rfl

/-! ## `State.memWrite` -/

@[simp] theorem State.memWrite_regs (s : State) (a v : Word) : (s.memWrite a v).regs = s.regs := rfl
@[simp] theorem State.memWrite_cc (s : State) (a v : Word) : (s.memWrite a v).cc = s.cc := rfl
@[simp] theorem State.memWrite_pc (s : State) (a v : Word) : (s.memWrite a v).pc = s.pc := rfl
@[simp] theorem State.memWrite_ir (s : State) (a v : Word) : (s.memWrite a v).ir = s.ir := rfl
@[simp] theorem State.memWrite_halted (s : State) (a v : Word) : (s.memWrite a v).halted = s.halted := rfl
@[simp] theorem State.memWrite_waiting (s : State) (a v : Word) : (s.memWrite a v).waiting = s.waiting := rfl
@[simp] theorem State.memWrite_mem (s : State) (a v : Word) : (s.memWrite a v).mem = s.mem.write a.toNat v := rfl
@[simp] theorem State.memWrite_input (s : State) (a v : Word) : (s.memWrite a v).input = s.input := rfl
@[simp] theorem State.memWrite_inputClosed (s : State) (a v : Word) : (s.memWrite a v).inputClosed = s.inputClosed := rfl
@[simp] theorem State.memWrite_consumed (s : State) (a v : Word) : (s.memWrite a v).consumed = s.consumed := rfl
@[simp] theorem State.memWrite_endReached (s : State) (a v : Word) : (s.memWrite a v).endReached = s.endReached := rfl
@[simp] theorem State.memWrite_output (s : State) (a v : Word) : (s.memWrite a v).output = s.output := rfl
@[simp] theorem State.memWrite_cfg (s : State) (a v : Word) : (s.memWrite a v).cfg = s.cfg := rfl
@[simp] theorem State.memWrite_readReg (s : State) (a v : Word) (j : RegNum) : (s.memWrite a v).readReg j = s.readReg j := rfl

/-! ## `State.jump` -/

@[simp] theorem State.jump_regs (s : State) (a : Word) : (s.jump a).regs = s.regs := rfl
@[simp] theorem State.jump_cc (s : State) (a : Word) : (s.jump a).cc = s.cc := rfl
@[simp] theorem State.jump_pc (s : State) (a : Word) : (s.jump a).pc = a := rfl
@[simp] theorem State.jump_ir (s : State) (a : Word) : (s.jump a).ir = s.ir := rfl
@[simp] theorem State.jump_halted (s : State) (a : Word) : (s.jump a).halted = s.halted := rfl
@[simp] theorem State.jump_waiting (s : State) (a : Word) : (s.jump a).waiting = s.waiting := rfl
@[simp] theorem State.jump_mem (s : State) (a : Word) : (s.jump a).mem = s.mem := rfl
@[simp] theorem State.jump_input (s : State) (a : Word) : (s.jump a).input = s.input := rfl
@[simp] theorem State.jump_inputClosed (s : State) (a : Word) : (s.jump a).inputClosed = s.inputClosed := rfl
@[simp] theorem State.jump_consumed (s : State) (a : Word) : (s.jump a).consumed = s.consumed := rfl
@[simp] theorem State.jump_endReached (s : State) (a : Word) : (s.jump a).endReached = s.endReached := rfl
@[simp] theorem State.jump_output (s : State) (a : Word) : (s.jump a).output = s.output := rfl
@[simp] theorem State.jump_cfg (s : State) (a : Word) : (s.jump a).cfg = s.cfg := rfl
@[simp] theorem State.jump_readReg (s : State) (a : Word) (j : RegNum) : (s.jump a).readReg j = s.readReg j := rfl
@[simp] theorem State.jump_memRead (s : State) (a : Word) (c : Word) : (s.jump a).memRead c = s.memRead c := rfl

/-! ## `State.fetch` -/

@[simp] theorem State.fetch_regs (s : State) : (s.fetch).regs = s.regs := rfl
@[simp] theorem State.fetch_cc (s : State) : (s.fetch).cc = s.cc := rfl
@[simp] theorem State.fetch_pc (s : State) : (s.fetch).pc = s.pc + 1 := rfl
@[simp] theorem State.fetch_ir (s : State) : (s.fetch).ir = s.memRead s.pc := rfl
@[simp] theorem State.fetch_halted (s : State) : (s.fetch).halted = s.halted := rfl
@[simp] theorem State.fetch_waiting (s : State) : (s.fetch).waiting = s.waiting := rfl
@[simp] theorem State.fetch_mem (s : State) : (s.fetch).mem = s.mem := rfl
@[simp] theorem State.fetch_input (s : State) : (s.fetch).input = s.input := rfl
@[simp] theorem State.fetch_inputClosed (s : State) : (s.fetch).inputClosed = s.inputClosed := rfl
@[simp] theorem State.fetch_consumed (s : State) : (s.fetch).consumed = s.consumed := rfl
@[simp] theorem State.fetch_endReached (s : State) : (s.fetch).endReached = s.endReached := rfl
@[simp] theorem State.fetch_output (s : State) : (s.fetch).output = s.output := rfl
@[simp] theorem State.fetch_cfg (s : State) : (s.fetch).cfg = s.cfg := rfl
@[simp] theorem State.fetch_readReg (s : State) (j : RegNum) : (s.fetch).readReg j = s.readReg j := rfl
@[simp] theorem State.fetch_memRead (s : State) (c : Word) : (s.fetch).memRead c = s.memRead c := rfl

/-! ## `State.halt` -/

@[simp] theorem State.halt_regs (s : State) : (s.halt).regs = s.regs := rfl
@[simp] theorem State.halt_cc (s : State) : (s.halt).cc = s.cc := rfl
@[simp] theorem State.halt_pc (s : State) : (s.halt).pc = s.pc := rfl
@[simp] theorem State.halt_ir (s : State) : (s.halt).ir = s.ir := rfl
@[simp] theorem State.halt_halted (s : State) : (s.halt).halted = true := rfl
@[simp] theorem State.halt_waiting (s : State) : (s.halt).waiting = s.waiting := rfl
@[simp] theorem State.halt_mem (s : State) : (s.halt).mem = s.mem := rfl
@[simp] theorem State.halt_input (s : State) : (s.halt).input = s.input := rfl
@[simp] theorem State.halt_inputClosed (s : State) : (s.halt).inputClosed = s.inputClosed := rfl
@[simp] theorem State.halt_consumed (s : State) : (s.halt).consumed = s.consumed := rfl
@[simp] theorem State.halt_endReached (s : State) : (s.halt).endReached = s.endReached := rfl
@[simp] theorem State.halt_output (s : State) : (s.halt).output = s.output := rfl
@[simp] theorem State.halt_cfg (s : State) : (s.halt).cfg = s.cfg := rfl
@[simp] theorem State.halt_readReg (s : State) (j : RegNum) : (s.halt).readReg j = s.readReg j := rfl
@[simp] theorem State.halt_memRead (s : State) (c : Word) : (s.halt).memRead c = s.memRead c := rfl

/-! ## `State.setWaiting` -/

@[simp] theorem State.setWaiting_regs (s : State) (b : Bool) : (s.setWaiting b).regs = s.regs := rfl
@[simp] theorem State.setWaiting_cc (s : State) (b : Bool) : (s.setWaiting b).cc = s.cc := rfl
@[simp] theorem State.setWaiting_pc (s : State) (b : Bool) : (s.setWaiting b).pc = s.pc := rfl
@[simp] theorem State.setWaiting_ir (s : State) (b : Bool) : (s.setWaiting b).ir = s.ir := rfl
@[simp] theorem State.setWaiting_halted (s : State) (b : Bool) : (s.setWaiting b).halted = s.halted := rfl
@[simp] theorem State.setWaiting_waiting (s : State) (b : Bool) : (s.setWaiting b).waiting = b := rfl
@[simp] theorem State.setWaiting_mem (s : State) (b : Bool) : (s.setWaiting b).mem = s.mem := rfl
@[simp] theorem State.setWaiting_input (s : State) (b : Bool) : (s.setWaiting b).input = s.input := rfl
@[simp] theorem State.setWaiting_inputClosed (s : State) (b : Bool) : (s.setWaiting b).inputClosed = s.inputClosed := rfl
@[simp] theorem State.setWaiting_consumed (s : State) (b : Bool) : (s.setWaiting b).consumed = s.consumed := rfl
@[simp] theorem State.setWaiting_endReached (s : State) (b : Bool) : (s.setWaiting b).endReached = s.endReached := rfl
@[simp] theorem State.setWaiting_output (s : State) (b : Bool) : (s.setWaiting b).output = s.output := rfl
@[simp] theorem State.setWaiting_cfg (s : State) (b : Bool) : (s.setWaiting b).cfg = s.cfg := rfl
@[simp] theorem State.setWaiting_readReg (s : State) (b : Bool) (j : RegNum) : (s.setWaiting b).readReg j = s.readReg j := rfl
@[simp] theorem State.setWaiting_memRead (s : State) (b : Bool) (c : Word) : (s.setWaiting b).memRead c = s.memRead c := rfl

/-! ## `State.consumeByte` -/

@[simp] theorem State.consumeByte_regs (s : State) : (s.consumeByte).regs = s.regs := rfl
@[simp] theorem State.consumeByte_cc (s : State) : (s.consumeByte).cc = s.cc := rfl
@[simp] theorem State.consumeByte_pc (s : State) : (s.consumeByte).pc = s.pc := rfl
@[simp] theorem State.consumeByte_ir (s : State) : (s.consumeByte).ir = s.ir := rfl
@[simp] theorem State.consumeByte_halted (s : State) : (s.consumeByte).halted = s.halted := rfl
@[simp] theorem State.consumeByte_waiting (s : State) : (s.consumeByte).waiting = s.waiting := rfl
@[simp] theorem State.consumeByte_mem (s : State) : (s.consumeByte).mem = s.mem := rfl
@[simp] theorem State.consumeByte_input (s : State) : (s.consumeByte).input = s.input := rfl
@[simp] theorem State.consumeByte_inputClosed (s : State) : (s.consumeByte).inputClosed = s.inputClosed := rfl
@[simp] theorem State.consumeByte_consumed (s : State) : (s.consumeByte).consumed = s.consumed + 1 := rfl
@[simp] theorem State.consumeByte_endReached (s : State) : (s.consumeByte).endReached = s.endReached := rfl
@[simp] theorem State.consumeByte_output (s : State) : (s.consumeByte).output = s.output := rfl
@[simp] theorem State.consumeByte_cfg (s : State) : (s.consumeByte).cfg = s.cfg := rfl
@[simp] theorem State.consumeByte_readReg (s : State) (j : RegNum) : (s.consumeByte).readReg j = s.readReg j := rfl
@[simp] theorem State.consumeByte_memRead (s : State) (c : Word) : (s.consumeByte).memRead c = s.memRead c := rfl

/-! ## `State.reachEnd` -/

@[simp] theorem State.reachEnd_regs (s : State) : (s.reachEnd).regs = s.regs := rfl
@[simp] theorem State.reachEnd_cc (s : State) : (s.reachEnd).cc = s.cc := rfl
@[simp] theorem State.reachEnd_pc (s : State) : (s.reachEnd).pc = s.pc := rfl
@[simp] theorem State.reachEnd_ir (s : State) : (s.reachEnd).ir = s.ir := rfl
@[simp] theorem State.reachEnd_halted (s : State) : (s.reachEnd).halted = s.halted := rfl
@[simp] theorem State.reachEnd_waiting (s : State) : (s.reachEnd).waiting = s.waiting := rfl
@[simp] theorem State.reachEnd_mem (s : State) : (s.reachEnd).mem = s.mem := rfl
@[simp] theorem State.reachEnd_input (s : State) : (s.reachEnd).input = s.input := rfl
@[simp] theorem State.reachEnd_inputClosed (s : State) : (s.reachEnd).inputClosed = s.inputClosed := rfl
@[simp] theorem State.reachEnd_consumed (s : State) : (s.reachEnd).consumed = s.consumed := rfl
@[simp] theorem State.reachEnd_endReached (s : State) : (s.reachEnd).endReached = true := rfl
@[simp] theorem State.reachEnd_output (s : State) : (s.reachEnd).output = s.output := rfl
@[simp] theorem State.reachEnd_cfg (s : State) : (s.reachEnd).cfg = s.cfg := rfl
@[simp] theorem State.reachEnd_readReg (s : State) (j : RegNum) : (s.reachEnd).readReg j = s.readReg j := rfl
@[simp] theorem State.reachEnd_memRead (s : State) (c : Word) : (s.reachEnd).memRead c = s.memRead c := rfl

/-! ## `State.consoleOut` -/

@[simp] theorem State.consoleOut_regs (s : State) (b : Byte) : (s.consoleOut b).regs = s.regs := rfl
@[simp] theorem State.consoleOut_cc (s : State) (b : Byte) : (s.consoleOut b).cc = s.cc := rfl
@[simp] theorem State.consoleOut_pc (s : State) (b : Byte) : (s.consoleOut b).pc = s.pc := rfl
@[simp] theorem State.consoleOut_ir (s : State) (b : Byte) : (s.consoleOut b).ir = s.ir := rfl
@[simp] theorem State.consoleOut_halted (s : State) (b : Byte) : (s.consoleOut b).halted = s.halted := rfl
@[simp] theorem State.consoleOut_waiting (s : State) (b : Byte) : (s.consoleOut b).waiting = s.waiting := rfl
@[simp] theorem State.consoleOut_mem (s : State) (b : Byte) : (s.consoleOut b).mem = s.mem := rfl
@[simp] theorem State.consoleOut_input (s : State) (b : Byte) : (s.consoleOut b).input = s.input := rfl
@[simp] theorem State.consoleOut_inputClosed (s : State) (b : Byte) : (s.consoleOut b).inputClosed = s.inputClosed := rfl
@[simp] theorem State.consoleOut_consumed (s : State) (b : Byte) : (s.consoleOut b).consumed = s.consumed := rfl
@[simp] theorem State.consoleOut_endReached (s : State) (b : Byte) : (s.consoleOut b).endReached = s.endReached := rfl
@[simp] theorem State.consoleOut_output (s : State) (b : Byte) : (s.consoleOut b).output = s.output ++ [b] := rfl
@[simp] theorem State.consoleOut_cfg (s : State) (b : Byte) : (s.consoleOut b).cfg = s.cfg := rfl
@[simp] theorem State.consoleOut_readReg (s : State) (b : Byte) (j : RegNum) : (s.consoleOut b).readReg j = s.readReg j := rfl
@[simp] theorem State.consoleOut_memRead (s : State) (b : Byte) (c : Word) : (s.consoleOut b).memRead c = s.memRead c := rfl

/-! ## `State.endInput` -/

@[simp] theorem State.endInput_regs (s : State) : (s.endInput).regs = s.regs := rfl
@[simp] theorem State.endInput_cc (s : State) : (s.endInput).cc = s.cc := rfl
@[simp] theorem State.endInput_pc (s : State) : (s.endInput).pc = s.pc := rfl
@[simp] theorem State.endInput_ir (s : State) : (s.endInput).ir = s.ir := rfl
@[simp] theorem State.endInput_halted (s : State) : (s.endInput).halted = s.halted := rfl
@[simp] theorem State.endInput_waiting (s : State) : (s.endInput).waiting = s.waiting := rfl
@[simp] theorem State.endInput_mem (s : State) : (s.endInput).mem = s.mem := rfl
@[simp] theorem State.endInput_input (s : State) : (s.endInput).input = s.input := rfl
@[simp] theorem State.endInput_inputClosed (s : State) : (s.endInput).inputClosed = true := rfl
@[simp] theorem State.endInput_consumed (s : State) : (s.endInput).consumed = s.consumed := rfl
@[simp] theorem State.endInput_endReached (s : State) : (s.endInput).endReached = s.endReached := rfl
@[simp] theorem State.endInput_output (s : State) : (s.endInput).output = s.output := rfl
@[simp] theorem State.endInput_cfg (s : State) : (s.endInput).cfg = s.cfg := rfl
@[simp] theorem State.endInput_readReg (s : State) (j : RegNum) : (s.endInput).readReg j = s.readReg j := rfl
@[simp] theorem State.endInput_memRead (s : State) (c : Word) : (s.endInput).memRead c = s.memRead c := rfl

/-! ## `State.setcc` -/

@[simp] theorem State.setcc_regs (s : State) (v : Word) : (s.setcc v).regs = s.regs := rfl
@[simp] theorem State.setcc_cc (s : State) (v : Word) : (s.setcc v).cc = condOf v := rfl
@[simp] theorem State.setcc_pc (s : State) (v : Word) : (s.setcc v).pc = s.pc := rfl
@[simp] theorem State.setcc_ir (s : State) (v : Word) : (s.setcc v).ir = s.ir := rfl
@[simp] theorem State.setcc_halted (s : State) (v : Word) : (s.setcc v).halted = s.halted := rfl
@[simp] theorem State.setcc_waiting (s : State) (v : Word) : (s.setcc v).waiting = s.waiting := rfl
@[simp] theorem State.setcc_mem (s : State) (v : Word) : (s.setcc v).mem = s.mem := rfl
@[simp] theorem State.setcc_input (s : State) (v : Word) : (s.setcc v).input = s.input := rfl
@[simp] theorem State.setcc_inputClosed (s : State) (v : Word) : (s.setcc v).inputClosed = s.inputClosed := rfl
@[simp] theorem State.setcc_consumed (s : State) (v : Word) : (s.setcc v).consumed = s.consumed := rfl
@[simp] theorem State.setcc_endReached (s : State) (v : Word) : (s.setcc v).endReached = s.endReached := rfl
@[simp] theorem State.setcc_output (s : State) (v : Word) : (s.setcc v).output = s.output := rfl
@[simp] theorem State.setcc_cfg (s : State) (v : Word) : (s.setcc v).cfg = s.cfg := rfl
@[simp] theorem State.setcc_readReg (s : State) (v : Word) (j : RegNum) : (s.setcc v).readReg j = s.readReg j := rfl
@[simp] theorem State.setcc_memRead (s : State) (v : Word) (c : Word) : (s.setcc v).memRead c = s.memRead c := rfl

end Sys2Proof.Machine
end

