-- ==== Sys2Proof/Laws/Ops.lean ====
section
/-! SUPPORT. One lemma for each shared operation that says all it can do. -/

namespace Sys2Proof.Machine

/-! ## Registers -/

/-- Reading a register after a write to one. -/
theorem State.readReg_writeReg (s : State) (i j : RegNum) (v : Word) :
    (s.writeReg i v).readReg j = if j = i then v else s.readReg j := by
  unfold State.readReg State.writeReg
  simp only [Vector.getElem_set, BitVec.toNat_inj, eq_comm (a := i)]

@[simp] theorem State.readReg_writeReg_same (s : State) (i : RegNum) (v : Word) : (s.writeReg i v).readReg i = v := by
  simp [State.readReg_writeReg]

/-- The second of two writes to one register is the one that counts. -/
@[simp] theorem State.writeReg_writeReg (s : State) (i : RegNum) (v w : Word) :
    (s.writeReg i v).writeReg i w = s.writeReg i w := by
  simp [State.writeReg]

/-- Writes to two different registers commute. -/
theorem State.writeReg_comm (s : State) (i j : RegNum) (v w : Word) (h : i ≠ j) :
    (s.writeReg i v).writeReg j w = (s.writeReg j w).writeReg i v := by
  have hij : i.toNat ≠ j.toNat := fun e => h (BitVec.eq_of_toNat_eq e)
  simp [State.writeReg, Vector.set_comm _ _ hij]

/-- The register that a flag-setting instruction writes. -/
theorem State.readReg_writeResult (s : State) (x j : RegNum) (v : Word) :
    (s.writeResult x v).readReg j = if j = x then v else s.readReg j := by
  simp [State.writeResult, State.readReg_writeReg]

/-! ## Memory -/

/-- A store leaves every other cell alone. -/
theorem State.memRead_memWrite_other (s : State) (a b v : Word) (h : b ≠ a) :
    (s.memWrite a v).memRead b = s.memRead b :=
  Memory.read_write_other _ _ _ _ fun e => h (BitVec.eq_of_toNat_eq e)

/-- In a canonical memory a cell reads as the value just stored. -/
theorem State.memRead_memWrite_same (s : State) (hm : s.mem.wf) (a v : Word) : (s.memWrite a v).memRead a = v :=
  Memory.read_write_same _ hm _ _

/-- A store keeps the canonical form. -/
theorem State.memWrite_wf (s : State) (hm : s.mem.wf) (a v : Word) : (s.memWrite a v).mem.wf :=
  Memory.write_wf _ hm _ _ a.isLt

/-! ## The console -/

/-- Everything `ConsoleIn()` can do. -/
theorem State.consoleIn_cases (s : State) :
    (∃ b, s.endReached = false ∧ s.input[s.consumed]? = some b ∧ s.consoleIn = (.byte b, s.consumeByte)) ∨
    (s.endReached = true ∧ s.consoleIn = (.endOfInput, s)) ∨
    (s.endReached = false ∧ s.input[s.consumed]? = none ∧ s.inputClosed = true ∧
      s.consoleIn = (.endOfInput, s.reachEnd)) ∨
    (s.endReached = false ∧ s.input[s.consumed]? = none ∧ s.inputClosed = false ∧ s.consoleIn = (.notYet, s)) := by
  unfold State.consoleIn
  cases hend : s.endReached
  · cases hin : s.input[s.consumed]? with
    | some b => exact .inl ⟨b, rfl, rfl, by simp⟩
    | none => cases hcl : s.inputClosed <;> simp
  · simp

/-- Everything the input service can do: it always answers a next state. -/
theorem trapIn_cases (s : State) :
    (∃ b, s.endReached = false ∧ s.input[s.consumed]? = some b ∧
      trapIn s = .next (s.consumeByte.writeReg 0 (zext8 b))) ∨
    (s.endReached = true ∧ trapIn s = .next (s.writeReg 0 s.cfg.eofSentinel)) ∨
    (s.endReached = false ∧ s.input[s.consumed]? = none ∧ s.inputClosed = true ∧
      trapIn s = .next (s.reachEnd.writeReg 0 s.cfg.eofSentinel)) ∨
    (s.endReached = false ∧ s.input[s.consumed]? = none ∧ s.inputClosed = false ∧
      trapIn s = .next (s.setWaiting true)) := by
  unfold trapIn
  rcases s.consoleIn_cases with ⟨b, h1, h2, h⟩ | ⟨h1, h⟩ | ⟨h1, h2, h3, h⟩ | ⟨h1, h2, h3, h⟩
  · exact .inl ⟨b, h1, h2, by simp [h]⟩
  · exact .inr (.inl ⟨h1, by simp [h]⟩)
  · exact .inr (.inr (.inl ⟨h1, h2, h3, by simp [h]⟩))
  · exact .inr (.inr (.inr ⟨h1, h2, h3, by simp [h]⟩))

/-! ## The end of a step -/

/-- When the check at the end of an instruction lets the state through. -/
theorem pcZeroCheck_eq_next (s t : State) :
    pcZeroCheck s = .next t ↔
      s = t ∧ ¬ (s.cfg.pcZeroPolicy = .refuse ∧ s.pc = 0 ∧ s.halted = false ∧ s.waiting = false) := by
  unfold pcZeroCheck
  split <;> simp_all

/-- A next state at the end of a step is the next state of the instruction, unchanged. -/
theorem endStep_eq_next (o : Host.Outcome State Fault Refusal) (t : State) :
    endStep o = .next t ↔
      o = .next t ∧ ¬ (t.cfg.pcZeroPolicy = .refuse ∧ t.pc = 0 ∧ t.halted = false ∧ t.waiting = false) := by
  cases o with
  | next s =>
    simp only [endStep, pcZeroCheck_eq_next, Host.Outcome.next.injEq]
    constructor
    · rintro ⟨rfl, h⟩; exact ⟨rfl, h⟩
    · rintro ⟨rfl, h⟩; exact ⟨rfl, h⟩
  | fault r => simp [endStep]
  | refused r => simp [endStep]

/-- A refusal at the end of a step is the instruction's own, or the PC check's. -/
theorem endStep_eq_refused (o : Host.Outcome State Fault Refusal) (r : Refusal) :
    endStep o = .refused r ↔
      o = .refused r ∨ r = .pcZero ∧ ∃ t, o = .next t ∧
        t.cfg.pcZeroPolicy = .refuse ∧ t.pc = 0 ∧ t.halted = false ∧ t.waiting = false := by
  cases o with
  | next t =>
    by_cases h : t.cfg.pcZeroPolicy = .refuse ∧ t.pc = 0 ∧ t.halted = false ∧ t.waiting = false
    · simp [endStep, pcZeroCheck, h, eq_comm (a := r)]
    · simp only [endStep, pcZeroCheck, if_neg h]
      exact ⟨nofun, fun hr => hr.elim nofun fun ⟨_, _, ht, hz⟩ => absurd (Host.Outcome.next.inj ht ▸ hz) h⟩
  | fault e => simp [endStep]
  | refused e => simp [endStep]

/-- Under the ordinary policy the end of a step changes nothing. -/
theorem pcZeroCheck_ordinary (s : State) (h : s.cfg.pcZeroPolicy = .ordinary) : pcZeroCheck s = .next s := by
  simp [pcZeroCheck, h]

end Sys2Proof.Machine
end

