-- ==== Sys2Proof/Laws/Exec.lean ====
section
/-! SUPPORT. One equation per instruction: what `exec` answers, in the shared operations; and what it can answer. -/

namespace Sys2Proof.Machine

variable (s : State)

theorem exec_br_taken (x : CondBits) (off9 : BitVec 9) (h : s.cc &&& x ≠ 0) :
    exec (.br x off9) s = .next (s.jump (s.relAddr off9)) := if_pos h

theorem exec_br_not_taken (x : CondBits) (off9 : BitVec 9) (h : s.cc &&& x = 0) :
    exec (.br x off9) s = .next s := if_neg (by simp [h])

@[simp] theorem exec_addReg (x y r : RegNum) :
    exec (.addReg x y r) s = .next (s.writeResult x (s.readReg y + s.readReg r)) := rfl

@[simp] theorem exec_addImm (x y : RegNum) (imm5 : BitVec 5) :
    exec (.addImm x y imm5) s = .next (s.writeResult x (s.readReg y + sext5 imm5)) := rfl

@[simp] theorem exec_ld (x : RegNum) (off9 : BitVec 9) :
    exec (.ld x off9) s = .next (s.writeResult x (s.memRead (s.relAddr off9))) := rfl

@[simp] theorem exec_st (x : RegNum) (off9 : BitVec 9) :
    exec (.st x off9) s = .next (s.memWrite (s.relAddr off9) (s.readReg x)) := rfl

@[simp] theorem exec_jsr (off9 : BitVec 9) :
    exec (.jsr off9) s = .next ((s.writeReg 7 s.pc).jump (s.relAddr off9)) := rfl

@[simp] theorem exec_andReg (x y r : RegNum) :
    exec (.andReg x y r) s = .next (s.writeResult x (s.readReg y &&& s.readReg r)) := rfl

@[simp] theorem exec_andImm (x y : RegNum) (imm5 : BitVec 5) :
    exec (.andImm x y imm5) s = .next (s.writeResult x (s.readReg y &&& sext5 imm5)) := rfl

@[simp] theorem exec_ldr (x y : RegNum) (off6 : BitVec 6) :
    exec (.ldr x y off6) s = .next (s.writeResult x (s.memRead (s.baseAddr y off6))) := rfl

@[simp] theorem exec_str (x y : RegNum) (off6 : BitVec 6) :
    exec (.str x y off6) s = .next (s.memWrite (s.baseAddr y off6) (s.readReg x)) := rfl

@[simp] theorem exec_not (x y : RegNum) :
    exec (.not x y) s = .next (s.writeResult x (~~~ s.readReg y)) := rfl

@[simp] theorem exec_ldi (x : RegNum) (off9 : BitVec 9) :
    exec (.ldi x off9) s = .next (s.writeResult x (s.memRead (s.indirectAddr off9))) := rfl

@[simp] theorem exec_sti (x : RegNum) (off9 : BitVec 9) :
    exec (.sti x off9) s = .next (s.memWrite (s.indirectAddr off9) (s.readReg x)) := rfl

@[simp] theorem exec_jmp (y : RegNum) : exec (.jmp y) s = .next (s.jump (s.readReg y)) := rfl

@[simp] theorem exec_lea (x : RegNum) (off9 : BitVec 9) :
    exec (.lea x off9) s = .next (s.writeResult x (s.relAddr off9)) := rfl

@[simp] theorem exec_trap_in : exec (.trap 0x20#8) s = trapIn s := rfl

@[simp] theorem exec_trap_out : exec (.trap 0x21#8) s = .next (s.consoleOut (lowByte (s.readReg 0))) := rfl

@[simp] theorem exec_trap_halt : exec (.trap 0x25#8) s = .next s.halt := rfl

theorem exec_trap_other (v : BitVec 8) (h0 : v ≠ 0x20) (h1 : v ≠ 0x21) (h2 : v ≠ 0x25) :
    exec (.trap v) s = .next s := by
  simp only [exec, execTrap]
  rw [if_neg h0, if_neg h1, if_neg h2]

/-- The service a vector selects, as four cases. -/
theorem trap_vector_cases (v : BitVec 8) :
    v = 0x20 ∨ v = 0x21 ∨ v = 0x25 ∨ (v ≠ 0x20 ∧ v ≠ 0x21 ∧ v ≠ 0x25) := by tauto

/-- Every defined instruction answers a next state, from every state. -/
theorem exec_next_of_wellFormed (i : Instr) (h : i.wellFormed = true) : ∃ t, exec i s = .next t := by
  cases i with
  | br x off9 =>
    by_cases hc : s.cc &&& x = 0
    · exact ⟨_, exec_br_not_taken s x off9 hc⟩
    · exact ⟨_, exec_br_taken s x off9 hc⟩
  | trap v =>
    rcases trap_vector_cases v with rfl | rfl | rfl | ⟨h0, h1, h2⟩
    · rcases trapIn_cases s with ⟨_, _, _, h⟩ | ⟨_, h⟩ | ⟨_, _, _, h⟩ | ⟨_, _, _, h⟩ <;> exact ⟨_, h⟩
    · exact ⟨_, rfl⟩
    · exact ⟨_, rfl⟩
    · exact ⟨_, exec_trap_other s v h0 h1 h2⟩
  | reserved8 => cases h
  | reserved13 => cases h
  | _ => exact ⟨_, rfl⟩

/-- An instruction is refused only because its opcode is reserved. -/
theorem exec_refused_cases (i : Instr) (r : Refusal) (h : exec i s = .refused r) :
    (i = .reserved8 ∧ r = .reservedOpcode 8) ∨ (i = .reserved13 ∧ r = .reservedOpcode 13) := by
  by_cases hi : i.wellFormed = true
  · obtain ⟨t, ht⟩ := exec_next_of_wellFormed s i hi
    rw [ht] at h; cases h
  · cases i <;> first | exact absurd rfl hi | (cases h; simp)

/-- What no instruction changes: the fetched word, the parameters, the input as delivered. -/
theorem exec_keeps (i : Instr) (t : State) (h : exec i s = .next t) :
    t.ir = s.ir ∧ t.cfg = s.cfg ∧ t.input = s.input ∧ t.inputClosed = s.inputClosed := by
  cases i with
  | br x off9 =>
    by_cases hc : s.cc &&& x = 0
    · rw [exec_br_not_taken s x off9 hc] at h; cases h; exact ⟨rfl, rfl, rfl, rfl⟩
    · rw [exec_br_taken s x off9 hc] at h; cases h; exact ⟨rfl, rfl, rfl, rfl⟩
  | trap v =>
    rcases trap_vector_cases v with rfl | rfl | rfl | ⟨h0, h1, h2⟩
    · change trapIn s = _ at h
      rcases trapIn_cases s with ⟨_, _, _, hin⟩ | ⟨_, hin⟩ | ⟨_, _, _, hin⟩ | ⟨_, _, _, hin⟩ <;>
        (rw [hin] at h; cases h; exact ⟨rfl, rfl, rfl, rfl⟩)
    · cases h; exact ⟨rfl, rfl, rfl, rfl⟩
    · cases h; exact ⟨rfl, rfl, rfl, rfl⟩
    · rw [exec_trap_other s v h0 h1 h2] at h; cases h; exact ⟨rfl, rfl, rfl, rfl⟩
  | reserved8 => cases h
  | reserved13 => cases h
  | _ => cases h; exact ⟨rfl, rfl, rfl, rfl⟩

end Sys2Proof.Machine
end

