-- ==== Sys2Proof/Laws/Launch.lean ====
section
/-! SUPPORT. The laws of the image load. -/

namespace Sys2Proof.Machine

/-- The number of words of an image. -/
theorem imageWords_length : ∀ bytes : List Byte, (imageWords bytes).length = bytes.length / 2
  | [] => rfl
  | [_] => by simp [imageWords]
  | _ :: _ :: rest => by simp [imageWords, imageWords_length rest]; omega

/-- The load leaves the cells below its start alone. -/
theorem loadWords_read_below (ws : List Word) :
    ∀ (m : Memory) (a b : Nat), b < a → (loadWords m a ws).read b = m.read b := by
  induction ws with
  | nil => intros; rfl
  | cons w ws ih =>
    intro m a b h
    rw [loadWords, ih _ _ _ (by omega), Memory.read_write_other _ _ _ _ (by omega)]

/-- The load leaves the cells above its end alone. -/
theorem loadWords_read_above (ws : List Word) :
    ∀ (m : Memory) (a b : Nat), a + ws.length ≤ b → (loadWords m a ws).read b = m.read b := by
  induction ws with
  | nil => intros; rfl
  | cons w ws ih =>
    intro m a b h
    simp only [List.length_cons] at h
    rw [loadWords, ih _ _ _ (by omega), Memory.read_write_other _ _ _ _ (by omega)]

/-- The load keeps the canonical form as long as it stays inside the address space. -/
theorem loadWords_wf (ws : List Word) :
    ∀ (m : Memory) (a : Nat), m.wf → a + ws.length ≤ 65536 → (loadWords m a ws).wf := by
  induction ws with
  | nil => intro m a h _; exact h
  | cons w ws ih =>
    intro m a h hlen
    simp only [List.length_cons] at hlen
    exact ih _ _ (Memory.write_wf _ h _ _ (by omega)) (by omega)

/-- The k-th loaded word stands k cells above the start. -/
theorem loadWords_read_in (ws : List Word) :
    ∀ (m : Memory) (a k : Nat) (_ : m.wf) (hk : k < ws.length), a + ws.length ≤ 65536 →
      (loadWords m a ws).read (a + k) = ws[k] := by
  induction ws with
  | nil => intro m a k _ hk; simp at hk
  | cons w ws ih =>
    intro m a k hm hk hlen
    simp only [List.length_cons] at hk hlen
    cases k with
    | zero => rw [loadWords, loadWords_read_below _ _ _ _ (by omega)]; exact Memory.read_write_same _ hm _ _
    | succ k =>
      rw [loadWords, show a + (k + 1) = a + 1 + k by omega,
        ih _ _ _ (Memory.write_wf _ hm _ _ (by omega)) (by omega) (by omega)]
      rfl

end Sys2Proof.Machine
end

