-- ==== Sys2Proof/Laws/PerInstr.lean ====
section
/-! SUPPORT. A per-instruction family: the canonical word of an instruction carries its opcode in the top four bits and
0 in every bit that no rule reads (spec 30_encoding.md R61, R65). -/

namespace Sys2Proof.Laws.CanonicalWord

/-- The top four bits of the word are the opcode and its ignored bits are 0. -/
def Statement (i : Instr) : Prop := opcField (encode i) = i.opcode ∧ encode i &&& i.ignoredBits = 0

/-- The same, bit by bit: the form in which each instruction is checked. -/
theorem of_bits (i : Instr) (hop : ∀ k < 4, (encode i).getLsbD (12 + k) = i.opcode.getLsbD k)
    (hig : ∀ k < 16, i.ignoredBits.getLsbD k = true → (encode i).getLsbD k = false) : Statement i := by
  constructor
  · refine BitVec.eq_of_getLsbD_eq fun k hk => ?_
    simpa [opcField, hk] using hop k hk
  · refine BitVec.eq_of_getLsbD_eq fun k hk => ?_
    rw [BitVec.getLsbD_and]
    cases hb : i.ignoredBits.getLsbD k
    · simp
    · simp [hig k hk hb]

theorem br (x : CondBits) (off9 : BitVec 9) : Statement (.br x off9) := by
  refine of_bits _ (fun k hk => ?_) fun k hk => ?_ <;> interval_cases k <;>
    simp_all [encode, place, Instr.opcode, Instr.ignoredBits]

theorem addReg (x y r : RegNum) : Statement (.addReg x y r) := by
  refine of_bits _ (fun k hk => ?_) fun k hk => ?_ <;> interval_cases k <;>
    simp_all [encode, place, Instr.opcode, Instr.ignoredBits]

theorem addImm (x y : RegNum) (imm5 : BitVec 5) : Statement (.addImm x y imm5) := by
  refine of_bits _ (fun k hk => ?_) fun k hk => ?_ <;> interval_cases k <;>
    simp_all [encode, place, Instr.opcode, Instr.ignoredBits]

theorem ld (x : RegNum) (off9 : BitVec 9) : Statement (.ld x off9) := by
  refine of_bits _ (fun k hk => ?_) fun k hk => ?_ <;> interval_cases k <;>
    simp_all [encode, place, Instr.opcode, Instr.ignoredBits]

theorem st (x : RegNum) (off9 : BitVec 9) : Statement (.st x off9) := by
  refine of_bits _ (fun k hk => ?_) fun k hk => ?_ <;> interval_cases k <;>
    simp_all [encode, place, Instr.opcode, Instr.ignoredBits]

theorem jsr (off9 : BitVec 9) : Statement (.jsr off9) := by
  refine of_bits _ (fun k hk => ?_) fun k hk => ?_ <;> interval_cases k <;>
    simp_all [encode, place, Instr.opcode, Instr.ignoredBits]

theorem andReg (x y r : RegNum) : Statement (.andReg x y r) := by
  refine of_bits _ (fun k hk => ?_) fun k hk => ?_ <;> interval_cases k <;>
    simp_all [encode, place, Instr.opcode, Instr.ignoredBits]

theorem andImm (x y : RegNum) (imm5 : BitVec 5) : Statement (.andImm x y imm5) := by
  refine of_bits _ (fun k hk => ?_) fun k hk => ?_ <;> interval_cases k <;>
    simp_all [encode, place, Instr.opcode, Instr.ignoredBits]

theorem ldr (x y : RegNum) (off6 : BitVec 6) : Statement (.ldr x y off6) := by
  refine of_bits _ (fun k hk => ?_) fun k hk => ?_ <;> interval_cases k <;>
    simp_all [encode, place, Instr.opcode, Instr.ignoredBits]

theorem str (x y : RegNum) (off6 : BitVec 6) : Statement (.str x y off6) := by
  refine of_bits _ (fun k hk => ?_) fun k hk => ?_ <;> interval_cases k <;>
    simp_all [encode, place, Instr.opcode, Instr.ignoredBits]

theorem reserved8 : Statement .reserved8 := by
  exact of_bits _ (by decide) (by decide)

theorem not (x y : RegNum) : Statement (.not x y) := by
  refine of_bits _ (fun k hk => ?_) fun k hk => ?_ <;> interval_cases k <;>
    simp_all [encode, place, Instr.opcode, Instr.ignoredBits]

theorem ldi (x : RegNum) (off9 : BitVec 9) : Statement (.ldi x off9) := by
  refine of_bits _ (fun k hk => ?_) fun k hk => ?_ <;> interval_cases k <;>
    simp_all [encode, place, Instr.opcode, Instr.ignoredBits]

theorem sti (x : RegNum) (off9 : BitVec 9) : Statement (.sti x off9) := by
  refine of_bits _ (fun k hk => ?_) fun k hk => ?_ <;> interval_cases k <;>
    simp_all [encode, place, Instr.opcode, Instr.ignoredBits]

theorem jmp (y : RegNum) : Statement (.jmp y) := by
  refine of_bits _ (fun k hk => ?_) fun k hk => ?_ <;> interval_cases k <;>
    simp_all [encode, place, Instr.opcode, Instr.ignoredBits]

theorem reserved13 : Statement .reserved13 := by
  exact of_bits _ (by decide) (by decide)

theorem lea (x : RegNum) (off9 : BitVec 9) : Statement (.lea x off9) := by
  refine of_bits _ (fun k hk => ?_) fun k hk => ?_ <;> interval_cases k <;>
    simp_all [encode, place, Instr.opcode, Instr.ignoredBits]

theorem trap (vect8 : BitVec 8) : Statement (.trap vect8) := by
  refine of_bits _ (fun k hk => ?_) fun k hk => ?_ <;> interval_cases k <;>
    simp_all [encode, place, Instr.opcode, Instr.ignoredBits]

end Sys2Proof.Laws.CanonicalWord
end

