-- ==== Sys2Proof/Laws/Step.lean ====
section
/-! SUPPORT. The step in its three run states, and the one inversion lemma of the step. -/

namespace Sys2Proof.Machine

theorem step_halted (s : State) (h : s.halted = true) : step s = .next s := by
  simp [step, cycle, haltedStep, h]

theorem step_waiting (s : State) (h : s.halted = false) (hw : s.waiting = true) :
    step s = endStep (trapIn (s.setWaiting false)) := by
  simp [step, cycle, waitingStep, resumeTrapIn, h, hw]

theorem step_running (s : State) (h : s.halted = false) (hw : s.waiting = false) :
    step s = endStep (exec (decodeWord (s.memRead s.pc)) s.fetch) := by
  simp [step, cycle, runningStep, h, hw]

/-- Everything a step that answers a next state can be. -/
theorem step_cases (s t : State) (h : step s = .next t) :
    (s.halted = true ∧ t = s) ∨
    (s.halted = false ∧ s.waiting = true ∧ trapIn (s.setWaiting false) = .next t) ∨
    (s.halted = false ∧ s.waiting = false ∧ exec (decodeWord (s.memRead s.pc)) s.fetch = .next t) := by
  cases hh : s.halted
  · cases hw : s.waiting
    · rw [step_running s hh hw, endStep_eq_next] at h
      exact .inr (.inr ⟨rfl, rfl, h.1⟩)
    · rw [step_waiting s hh hw, endStep_eq_next] at h
      exact .inr (.inl ⟨rfl, rfl, h.1⟩)
  · rw [step_halted s hh] at h
    exact .inl ⟨rfl, by simpa using h.symm⟩

end Sys2Proof.Machine
end

