-- ==== Sys2Proof/Tests/Slice0.lean ====
section
/-! SUPPORT. The tests of the model. The expected results come from spec/95_test_vectors.md (a V number or a section) or
from the word patterns of 30_encoding.md R63; and a named witness for the hypotheses of each statement. -/

namespace Sys2Proof.Tests

open Sys2Proof.Machine

/-! ## Helpers -/

/-- A running engine at `pc`, registers 0, with the CC and the memory cells given (in rising order). -/
def machine (pc : Word) (cc : CondBits) (cells : Memory) : State := { State.reset with pc := pc, cc := cc, mem := cells }

/-- The step answers a next state of which `p` holds. -/
def stepsTo (s : State) (p : State → Bool) : Bool :=
  match step s with
  | .next t => p t
  | .fault _ => false
  | .refused _ => false

/-- The step is refused for the reason given. -/
def isRefused (s : State) (r : Refusal) : Bool :=
  match step s with
  | .next _ => false
  | .fault _ => false
  | .refused r' => decide (r' = r)

/-! ## WellFormed -/

theorem test_wellFormed_refuses_reserved8 : Instr.reserved8.wellFormed = false := by decide
theorem test_wellFormed_refuses_reserved13 : Instr.reserved13.wellFormed = false := by decide
theorem test_wellFormed_admits_every_field : (Instr.br 0b111 0x1FF).wellFormed = true ∧ (Instr.trap 0xFF).wellFormed = true := by
  decide

/-! ## Decoding, one word or more per constructor, written out from the patterns of R63 (section 2.9) -/

theorem test_decode_br : decodeWord 0b0000101111111101 = .br 0b101 0b111111101 := by decide
theorem test_decode_addReg : decodeWord 0b0001000001000010 = .addReg 0 1 2 := by decide
theorem test_decode_addReg_ignored : decodeWord 0b0001000001011010 = .addReg 0 1 2 := by decide
theorem test_decode_addImm : decodeWord 0b0001001001111111 = .addImm 1 1 0b11111 := by decide
theorem test_decode_ld : decodeWord 0b0010001000000110 = .ld 1 6 := by decide
theorem test_decode_st : decodeWord 0b0011011000000011 = .st 3 3 := by decide
theorem test_decode_jsr : decodeWord 0b0100111111111101 = .jsr 0b111111101 := by decide
theorem test_decode_andReg : decodeWord 0b0101000001000010 = .andReg 0 1 2 := by decide
theorem test_decode_andImm : decodeWord 0b0101011011111111 = .andImm 3 3 0b11111 := by decide
theorem test_decode_ldr : decodeWord 0b0110001010000011 = .ldr 1 2 3 := by decide
theorem test_decode_str : decodeWord 0b0111001110111111 = .str 1 6 0b111111 := by decide
theorem test_decode_reserved8 : decodeWord 0b1000000100100011 = .reserved8 := by decide
theorem test_decode_not : decodeWord 0b1001010001111111 = .not 2 1 := by decide
theorem test_decode_ldi : decodeWord 0b1010001000000010 = .ldi 1 2 := by decide
theorem test_decode_sti : decodeWord 0b1011000111111111 = .sti 0 0b111111111 := by decide
theorem test_decode_jmp : decodeWord 0b1100111111111111 = .jmp 7 := by decide
theorem test_decode_reserved13 : decodeWord 0b1101000000000000 = .reserved13 := by decide
theorem test_decode_lea : decodeWord 0b1110000111111111 = .lea 0 0b111111111 := by decide
theorem test_decode_trap : decodeWord 0b1111111111111111 = .trap 0xFF := by decide

/-- The bytes of the image are high byte first (R172); a lone byte is no word. -/
theorem test_decodeBytes : (decodeBytes [0x22, 0x06, 0xF0]).toOption = some (.ld 1 6, [0xF0]) ∧
    (decodeBytes [0x22]).toOption = none ∧ (decodeBytes []).toOption = none := by decide

/-- The table's numbering: bit 0 is the least significant bit of the word. -/
theorem test_decodeTableWord : decodeTableWord 16 0x2206 = some (.ld 1 6) ∧ decodeTableWord 16 0xF025 = some .halt := by
  decide

/-- The canonical words of R76 and the aliases of R77. -/
theorem test_encode : encode (.addImm 1 1 0b11111) = 0x127F ∧ encode (.not 2 2) = 0x9480 ∧ encode .nop = 0x0000 ∧
    encode .ret = 0xC1C0 ∧ encode .getc = 0xF020 ∧ encode .out = 0xF021 ∧ encode .halt = 0xF025 := by decide

/-- Offset fields (sections 1.3, 1.4), the last one truncated by the mask. -/
theorem test_relativeField : relativeField 0x3005 0x3003 = 0x1FD ∧ relativeField 0xFFFE 0x0003 = 0x004 ∧
    relativeField 0x3000 0x312D = 0x12C := by decide

/-- Sign extension (section 2.1). -/
theorem test_sext : sext5 0x10 = 0xFFF0 ∧ sext5 0x0F = 0x000F ∧ sext6 0x20 = 0xFFE0 ∧ sext6 0x1F = 0x001F ∧
    sext9 0x100 = 0xFF00 ∧ sext9 0x0FF = 0x00FF := by decide

/-- The classification of a result (section 2.2). -/
theorem test_condOf : condOf 0x0000 = 0b010 ∧ condOf 0x7FFF = 0b001 ∧ condOf 0x8000 = 0b100 ∧ condOf 0xFFFF = 0b100 := by
  decide

/-! ## Single steps (sections 2.4 to 2.8) -/

theorem test_br_taken_wraps : stepsTo (machine 0x0000 0b010 [(0x0000, 0x0FFE)]) fun t => t.pc == 0xFFFF && t.cc == 0b010 := by
  decide -- V9
theorem test_br_needs_a_common_bit : stepsTo (machine 0x3005 0b000 [(0x3005, 0x0FFF)]) fun t => t.pc == 0x3006 := by
  decide -- V6
theorem test_jsr_nine_bit_offset : stepsTo (machine 0x3010 0 [(0x3010, 0x4A00)]) fun t =>
    t.pc == 0x3011 && t.readReg 7 == 0x3011 := by decide -- V17
theorem test_jsr_backward : stepsTo (machine 0x3010 0 [(0x3010, 0x41FD)]) fun t =>
    t.pc == 0x300E && t.readReg 7 == 0x3011 := by decide -- V15
theorem test_jmp_ignores_bits : stepsTo ((machine 0x3020 0 [(0x3020, 0xCE3F)]).writeReg 0 0xFFFF) fun t => t.pc == 0xFFFF := by
  decide -- V23
theorem test_jmp_ret : stepsTo ((machine 0x3020 0 [(0x3020, 0xC1C0)]).writeReg 7 0x3011) fun t => t.pc == 0x3011 := by
  decide -- V22
theorem test_addReg_carry_lost : stepsTo (((machine 0x3000 0 [(0x3000, 0x1705)]).writeReg 4 0xFFFF).writeReg 5 2) fun t =>
    t.readReg 3 == 0x0001 && t.cc == 0b001 && t.pc == 0x3001 := by decide -- V29
theorem test_addReg_same_source_and_destination : stepsTo ((machine 0x3000 0 [(0x3000, 0x1241)]).writeReg 1 0x4000) fun t =>
    t.readReg 1 == 0x8000 && t.cc == 0b100 := by decide -- V27
theorem test_addImm_signed_overflow : stepsTo ((machine 0x3000 0 [(0x3000, 0x1261)]).writeReg 1 0x7FFF) fun t =>
    t.readReg 1 == 0x8000 && t.cc == 0b100 := by decide -- V30
theorem test_addImm_smallest : stepsTo ((machine 0x3000 0 [(0x3000, 0x14F0)]).writeReg 3 0x0010) fun t =>
    t.readReg 2 == 0x0000 && t.cc == 0b010 := by decide -- V36
theorem test_andReg : stepsTo (((machine 0x3000 0 [(0x3000, 0x549B)]).writeReg 2 0x00FF).writeReg 3 0x0F0F) fun t =>
    t.readReg 2 == 0x000F && t.cc == 0b001 := by decide -- V44
theorem test_andImm_sign_extended : stepsTo ((machine 0x3000 0 [(0x3000, 0x5070)]).writeReg 1 0xABCD) fun t =>
    t.readReg 0 == 0xABC0 && t.cc == 0b100 := by decide -- V43
theorem test_andImm_positive : stepsTo ((machine 0x3000 0 [(0x3000, 0x506F)]).writeReg 1 0xABCD) fun t =>
    t.readReg 0 == 0x000D && t.cc == 0b001 := by decide -- V42
theorem test_not : stepsTo ((machine 0x3000 0 [(0x3000, 0x9040)]).writeReg 1 0x8000) fun t =>
    t.readReg 0 == 0x7FFF && t.readReg 1 == 0x8000 && t.cc == 0b001 := by decide -- V49
theorem test_not_ignores_bits : stepsTo ((machine 0x3000 0 [(0x3000, 0x927F)]).writeReg 1 0x000B) fun t =>
    t.readReg 1 == 0xFFF4 && t.cc == 0b100 := by decide -- V46
theorem test_ld_address_wraps : stepsTo (machine 0xFFFF 0 [(0x0002, 0x0077), (0xFFFF, 0x2402)]) fun t =>
    t.pc == 0x0000 && t.readReg 2 == 0x0077 && t.cc == 0b001 := by decide -- V53
theorem test_ld_itself : stepsTo (machine 0x3000 0 [(0x3000, 0x23FF)]) fun t => t.readReg 1 == 0x23FF && t.cc == 0b001 := by
  decide -- V51
theorem test_st : stepsTo ((machine 0x3005 0b100 [(0x3005, 0x3603)]).writeReg 3 3) fun t =>
    t.memRead 0x3009 == 0x0003 && t.cc == 0b100 := by decide -- V55
theorem test_st_itself : stepsTo (machine 0x3005 0 [(0x3005, 0x37FF)]) fun t =>
    t.memRead 0x3005 == 0x0000 && t.mem == [] && t.ir == 0x37FF := by decide -- V57
theorem test_ldr_in_place : stepsTo ((machine 0x3000 0 [(0x3000, 0x6480), (0x4000, 0x5000)]).writeReg 2 0x4000) fun t =>
    t.readReg 2 == 0x5000 && t.cc == 0b001 := by decide -- V61
theorem test_ldr_negative_offset : stepsTo ((machine 0x3000 0 [(0x3000, 0x62A0), (0x4000, 0xC000)]).writeReg 2 0x4020) fun t =>
    t.readReg 1 == 0xC000 && t.cc == 0b100 := by decide -- V59
theorem test_str_wraps : stepsTo ((machine 0x3000 0b010 [(0x3000, 0x72BF)]).writeReg 1 0x1234) fun t =>
    t.memRead 0xFFFF == 0x1234 && t.cc == 0b010 := by decide -- V66
theorem test_str_source_is_base : stepsTo ((machine 0x3000 0 [(0x3000, 0x7480)]).writeReg 2 0x5000) fun t =>
    t.memRead 0x5000 == 0x5000 := by decide -- V65
theorem test_ldi_pointer_to_itself : stepsTo (machine 0x3000 0 [(0x3000, 0xA202), (0x3003, 0x3003)]) fun t =>
    t.readReg 1 == 0x3003 && t.cc == 0b001 := by decide -- V68
theorem test_ldi_flags_of_the_value : stepsTo (machine 0x3000 0 [(0x3000, 0xA202), (0x3003, 0x4000), (0x4000, 0x0042)]) fun t =>
    t.readReg 1 == 0x0042 && t.cc == 0b001 := by decide -- V67
theorem test_sti : stepsTo ((machine 0x3000 0 [(0x3000, 0xB202), (0x3003, 0x4000)]).writeReg 1 7) fun t =>
    t.memRead 0x4000 == 0x0007 && t.memRead 0x3003 == 0x4000 := by decide -- V70
theorem test_sti_pointer_to_itself : stepsTo ((machine 0x3000 0 [(0x3000, 0xB202), (0x3003, 0x3003)]).writeReg 1 7) fun t =>
    t.memRead 0x3003 == 0x0007 := by decide -- V71
theorem test_lea_sets_n : stepsTo (machine 0x7FFF 0b001 [(0x7FFF, 0xE000)]) fun t =>
    t.pc == 0x8000 && t.readReg 0 == 0x8000 && t.cc == 0b100 := by decide -- V74
theorem test_lea_wraps : stepsTo (machine 0xFFFF 0b001 [(0xFFFF, 0xE1FF)]) fun t =>
    t.pc == 0x0000 && t.readReg 0 == 0xFFFF && t.cc == 0b100 := by decide -- V76
theorem test_trap_in : stepsTo { machine 0x3000 0b100 [(0x3000, 0xF120)] with input := [0xFF] } (fun t =>
      t.pc == 0x3001 && t.readReg 0 == 0x00FF && t.cc == 0b100 && t.consumed == 1) ∧
    stepsTo { machine 0x3000 0b001 [(0x3000, 0xF020)] with inputClosed := true } (fun t =>
      t.pc == 0x3001 && t.readReg 0 == 0xFFFF && t.cc == 0b001) := by decide -- V78, V89, V80
theorem test_trap_out_halt_and_no_op : stepsTo ((machine 0x3000 0b001 [(0x3000, 0xF021)]).writeReg 0 0x1248) (fun t =>
      t.output == [0x48] && t.readReg 0 == 0x1248) ∧
    stepsTo (machine 0x3000 0b001 [(0x3000, 0xFF25)]) (fun t => t.halted && t.cc == 0b001) ∧
    stepsTo ((machine 0x3000 0b001 [(0x3000, 0xF022)]).writeReg 0 0x4000) (fun t =>
      t.pc == 0x3001 && t.output == [] && !t.halted) := by decide -- V81, V84, V86
theorem test_reserved8_refused : isRefused (machine 0x3000 0 [(0x3000, 0x8FFF)]) (.reservedOpcode 8) := by decide -- V91
theorem test_reserved13_refused : isRefused (machine 0x3000 0 [(0x3000, 0xDABC)]) (.reservedOpcode 13) := by decide -- V93

/-- The last row of section 3: JMP to 0x0000 under the two policies. -/
theorem test_pcZero : stepsTo (machine 0x3000 0 [(0x3000, 0xC000)]) (fun t => t.pc == 0x0000) ∧
    isRefused { machine 0x3000 0 [(0x3000, 0xC000)] with cfg := ⟨0x3000, 0xFFFF, .refuse⟩ } .pcZero := by decide

/-- Section 3: the hold in TRAP 0x20 when no input arrives. -/
theorem test_trap_in_waits : stepsTo (machine 0x3000 0b001 [(0x3000, 0xF020)]) fun t =>
    t.waiting && t.pc == 0x3001 && stepsTo t (fun u => u == t) && stepsTo (t.deliver 0x41) (fun u =>
      u.readReg 0 == 0x0041 && u.pc == 0x3001 && !u.waiting && u.consumed == 1) := by decide

/-! ## The image and the placing of one word (section 2.10) -/

/-- A launch of the spec's own parameters. -/
def launchOf (origin : Word) (image : List Byte) : Launch where
  cfg := { Config.standard with origin := origin }
  regReset := Vector.replicate 8 0
  ccReset := 0
  memInit := []
  image := image
  input := []
  inputClosed := false

/-- The memory a launch leaves. -/
def loaded (l : Launch) : Option Memory :=
  match boot l with
  | .next s => some s.mem
  | .fault _ => none
  | .refused _ => none

theorem test_image_load : loaded (launchOf 0x3000 [0x22, 0x06, 0xF0, 0x25]) = some [(0x3000, 0x2206), (0x3001, 0xF025)] ∧
    loaded (launchOf 0x3000 [0x12, 0x34, 0x56]) = some [(0x3000, 0x1234)] ∧
    loaded (launchOf 0x4000 [0x00, 0xFF, 0xFF, 0x00]) = some [(0x4000, 0x00FF), (0x4001, 0xFF00)] ∧
    loaded (launchOf 0x3000 []) = some [] := by decide

theorem test_image_too_long : loaded (launchOf 0xFFFF [0x12, 0x34]) = some [(0xFFFF, 0x1234)] ∧
    loaded (launchOf 0xFFFF [0x12, 0x34, 0x56, 0x78]) = none := by decide

theorem test_withFetchWord : stepsTo (State.reset.withFetchWord 16 0x1261) fun t => t.ir == 0x1261 && t.readReg 1 == 0x0001 := by
  decide

/-! ## Witnesses: states and operands that meet the hypotheses of each statement -/

/-- The PC-zero policy `refuse` in a running engine. -/
def refusing (s : State) : State := { s with cfg := { s.cfg with pcZeroPolicy := .refuse } }

theorem witness_IgnoredBitsHaveNoInfluence :
    ((0x1042#16 &&& 0xF020 = 0x1000 ∧ (0x1042#16 ^^^ 0x105A) &&& ~~~ 0x0018 = 0) ∧
     (0x5483#16 &&& 0xF020 = 0x5000 ∧ (0x5483#16 ^^^ 0x549B) &&& ~~~ 0x0018 = 0)) ∧
    (0x9240#16 &&& 0xF000 = 0x9000 ∧ (0x9240#16 ^^^ 0x927F) &&& ~~~ 0x003F = 0) ∧
    (0xC000#16 &&& 0xF000 = 0xC000 ∧ (0xC000#16 ^^^ 0xCE3F) &&& ~~~ 0x0E3F = 0) ∧
    (0x4000#16 &&& 0xF000 = 0x4000 ∧ (0x4000#16 ^^^ 0x4E00) &&& ~~~ 0x0E00 = 0) ∧
    (0xF020#16 &&& 0xF000 = 0xF000 ∧ (0xF020#16 ^^^ 0xFF20) &&& ~~~ 0x0F00 = 0) := by decide

theorem witness_RelativeFieldReachesItsTarget :
    (-256 ≤ (0x3100#16 - (0x3000#16 + 1)).toInt ∧ (0x3100#16 - (0x3000#16 + 1)).toInt = 255) ∧
    ((0x2F01#16 - (0x3000#16 + 1)).toInt = -256 ∧ (0x2F01#16 - (0x3000#16 + 1)).toInt ≤ 255) := by decide

theorem witness_ReservedWordsAreRefused :
    (Running (machine 0x3000 0 [(0x3000, 0x8000)]) ∧ ((machine 0x3000 0 [(0x3000, 0x8000)]).memRead 0x3000).toNat = 0x8000) ∧
    (Running (machine 0x3000 0 [(0x3000, 0x8FFF)]) ∧ ((machine 0x3000 0 [(0x3000, 0x8FFF)]).memRead 0x3000).toNat = 0x8FFF) ∧
    (Running (machine 0x3000 0 [(0x3000, 0xD000)]) ∧ ((machine 0x3000 0 [(0x3000, 0xD000)]).memRead 0x3000).toNat = 0xD000) ∧
    (Running (machine 0x3000 0 [(0x3000, 0xDFFF)]) ∧ ((machine 0x3000 0 [(0x3000, 0xDFFF)]).memRead 0x3000).toNat = 0xDFFF) := by
  unfold Running; decide

theorem witness_StepIsFetchIncrementExecute :
    Running (machine 0xFFFF 0 [(0xFFFF, 0x1261)]) ∧ (machine 0xFFFF 0 [(0xFFFF, 0x1261)]).cfg.pcZeroPolicy = .ordinary := by
  unfold Running; decide

theorem witness_FinalPcFollowsTheTable :
    Instr.jsr 0x1FF ≠ .trap 0x25 ∧ ∃ t, exec (.jsr 0x1FF) (machine 0x0000 0 []) = .next t :=
  ⟨by decide, _, rfl⟩

/-- The first and the last word of each opcode value, and of each form of ADD and AND. -/
theorem witness_opcode_words :
    (0x0000#16 &&& 0xF000 = 0x0000 ∧ 0x0FFF#16 &&& 0xF000 = 0x0000) ∧
    (0x1000#16 &&& 0xF020 = 0x1000 ∧ 0x1FDF#16 &&& 0xF020 = 0x1000) ∧
    (0x1020#16 &&& 0xF020 = 0x1020 ∧ 0x1FFF#16 &&& 0xF020 = 0x1020) ∧
    (0x2000#16 &&& 0xF000 = 0x2000 ∧ 0x2FFF#16 &&& 0xF000 = 0x2000) ∧
    (0x3000#16 &&& 0xF000 = 0x3000 ∧ 0x3FFF#16 &&& 0xF000 = 0x3000) ∧
    (0x4000#16 &&& 0xF000 = 0x4000 ∧ 0x4FFF#16 &&& 0xF000 = 0x4000) ∧
    (0x5000#16 &&& 0xF020 = 0x5000 ∧ 0x5FDF#16 &&& 0xF020 = 0x5000) ∧
    (0x5020#16 &&& 0xF020 = 0x5020 ∧ 0x5FFF#16 &&& 0xF020 = 0x5020) ∧
    (0x6000#16 &&& 0xF000 = 0x6000 ∧ 0x6FFF#16 &&& 0xF000 = 0x6000) ∧
    (0x7000#16 &&& 0xF000 = 0x7000 ∧ 0x7FFF#16 &&& 0xF000 = 0x7000) ∧
    (0x9000#16 &&& 0xF000 = 0x9000 ∧ 0x9FFF#16 &&& 0xF000 = 0x9000) ∧
    (0xA000#16 &&& 0xF000 = 0xA000 ∧ 0xAFFF#16 &&& 0xF000 = 0xA000) ∧
    (0xB000#16 &&& 0xF000 = 0xB000 ∧ 0xBFFF#16 &&& 0xF000 = 0xB000) ∧
    (0xC000#16 &&& 0xF000 = 0xC000 ∧ 0xCFFF#16 &&& 0xF000 = 0xC000) ∧
    (0xE000#16 &&& 0xF000 = 0xE000 ∧ 0xEFFF#16 &&& 0xF000 = 0xE000) ∧
    (0xF000#16 &&& 0xF000 = 0xF000 ∧ 0xFFFF#16 &&& 0xF000 = 0xF000) := by decide

theorem witness_BranchTakenWhenCcMeetsMask :
    (∃ k, (0b111#3).getLsbD k = true ∧ (0b100#3).getLsbD k = true) ∧
    ¬ (∃ k, (0b000#3).getLsbD k = true ∧ (0b111#3).getLsbD k = true) ∧
    ¬ (∃ k, (0b100#3).getLsbD k = true ∧ (0b011#3).getLsbD k = true) := by
  refine ⟨⟨2, by decide⟩, fun ⟨k, h, _⟩ => by simp at h, fun ⟨k, h, h'⟩ => ?_⟩
  match k with
  | 0 => simp at h
  | 1 => simp at h
  | 2 => simp at h'
  | k + 3 => simp at h

theorem witness_TakenSelfBranchNeverEnds :
    Running (machine 0x3005 0b001 [(0x3005, 0x0FFF)]) ∧
    decodeWord ((machine 0x3005 0b001 [(0x3005, 0x0FFF)]).memRead 0x3005) = .br 0b111 0x1FF ∧
    0b001#3 &&& 0b111 ≠ 0 ∧ (refusing (machine 0x3005 0b001 [(0x3005, 0x0FFF)])).pc ≠ 0 ∧
    (machine 0x0000 0b001 [(0x0000, 0x0FFF)]).cfg.pcZeroPolicy = .ordinary := by unfold Running; decide

theorem witness_SubtractionByComplement : (1 : RegNum) ≠ 2 := by decide

/-- A memory in canonical form, for the stores; reset's memory is one too. -/
theorem witness_canonical_memory :
    (machine 0x3005 0 [(0x0000, 0x0001), (0x3005, 0x3600), (0xFFFF, 0x1234)]).mem.wf ∧ State.reset.mem.wf := by decide

theorem witness_StoreIsSeenByTheNextFetch :
    (∃ t, exec (.st 3 0) (machine 0x3006 0 [(0x3005, 0x3600)]) = .next t ∧ t.pc = 0x3006 ∧ Running t ∧
      store (.st 3 0) (machine 0x3006 0 [(0x3005, 0x3600)]) = some (0x3006, 3)) ∧
    (∃ t, exec (.str 3 2 0) ((machine 0x3006 0 []).writeReg 2 0x3006) = .next t ∧ t.pc = 0x3006 ∧ Running t ∧
      store (.str 3 2 0) ((machine 0x3006 0 []).writeReg 2 0x3006) = some (0x3006, 3)) ∧
    ∃ t, exec (.sti 3 1) (machine 0x3006 0 [(0x3007, 0x3006)]) = .next t ∧ t.pc = 0x3006 ∧ Running t ∧
      store (.sti 3 1) (machine 0x3006 0 [(0x3007, 0x3006)]) = some (0x3006, 3) :=
  ⟨⟨_, rfl, rfl, ⟨rfl, rfl⟩, rfl⟩, ⟨_, rfl, rfl, ⟨rfl, rfl⟩, rfl⟩, ⟨_, rfl, rfl, ⟨rfl, rfl⟩, rfl⟩⟩

theorem witness_TrapTouchesOnlyItsService :
    (0x24#8 ≠ 0x25) ∧ (0x26#8 ∉ [0x20#8, 0x21#8, 0x25#8]) ∧ ((1 : RegNum) ≠ 0) ∧ ((7 : RegNum) ≠ 0) := by decide

theorem witness_TrapInReadsAByte :
    ByteReady { machine 0x3001 0b100 [] with input := [0x41, 0xFF], consumed := 1 } 0xFF := ⟨rfl, rfl⟩

theorem witness_EndOfInputGivesTheSentinelForEver :
    InputExhausted { machine 0x3001 0 [] with input := [0x41], consumed := 1, inputClosed := true } ∧
    InputExhausted { machine 0x3001 0 [] with inputClosed := true, endReached := true } ∧
    ∃ t, Sys2Proof.core.run 2 { machine 0x3000 0 [(0x3000, 0xF020)] with inputClosed := true, endReached := true } = .next t :=
  ⟨.inr ⟨rfl, rfl⟩, .inl rfl, _, rfl⟩

/-- The state that a TRAP 0x20 waits in, one byte of the input already consumed. -/
def waitingState : State :=
  { machine 0x3001 0 [(0x3000, 0xF020)] with ir := 0xF020, waiting := true, input := [0x41], consumed := 1 }

theorem witness_WaitEndsOnlyByDelivery :
    waitingState.halted = false ∧ waitingState.waiting = true ∧ InputPending waitingState ∧
    waitingState.cfg.pcZeroPolicy = .ordinary ∧ waitingState.consumed = waitingState.input.length :=
  ⟨rfl, rfl, ⟨rfl, rfl, rfl⟩, rfl, rfl⟩

/-- The same under `refuse`: at a PC other than 0x0000, and at 0x0000. -/
theorem witness_WaitEndsOnlyByDelivery_refuse :
    ((refusing waitingState).halted = false ∧ (refusing waitingState).waiting = true ∧ InputPending (refusing waitingState) ∧
      (refusing waitingState).pc ≠ 0 ∧ (refusing waitingState).consumed = (refusing waitingState).input.length) ∧
    { refusing waitingState with pc := 0 }.halted = false ∧ { refusing waitingState with pc := 0 }.waiting = true ∧
    InputPending { refusing waitingState with pc := 0 } ∧
    { refusing waitingState with pc := 0 }.cfg.pcZeroPolicy = .refuse ∧
    { refusing waitingState with pc := 0 }.consumed = { refusing waitingState with pc := 0 }.input.length :=
  ⟨⟨rfl, rfl, ⟨rfl, rfl, rfl⟩, by decide, rfl⟩, rfl, rfl, ⟨rfl, rfl, rfl⟩, rfl, rfl⟩

theorem witness_StepAroundExec : { machine 0x3001 0 [] with halted := true }.halted = true ∧
    (waitingState.halted = false ∧ waitingState.waiting = true) ∧ Running (machine 0xFFFF 0 [(0xFFFF, 0x1261)]) :=
  ⟨rfl, ⟨rfl, rfl⟩, rfl, rfl⟩

theorem witness_NoEffectEncodingsOnlyAdvance :
    (Running (machine 0xFFFF 0b111 [(0xFFFF, 0x01FF)]) ∧ (machine 0xFFFF 0b111 [(0xFFFF, 0x01FF)]).cfg.pcZeroPolicy = .ordinary ∧
      ((machine 0xFFFF 0b111 [(0xFFFF, 0x01FF)]).memRead 0xFFFF).toNat < 512) ∧
    Running (refusing (machine 0x3000 0 [(0x3000, 0xF026)])) ∧ (refusing (machine 0x3000 0 [(0x3000, 0xF026)])).pc + 1 ≠ 0 ∧
    ((machine 0x3000 0 [(0x3000, 0xF026)]).memRead 0x3000).extractLsb' 12 4 = 15 ∧
    ((machine 0x3000 0 [(0x3000, 0xF026)]).memRead 0x3000).extractLsb' 0 8 ∉ [0x20#8, 0x21#8, 0x25#8] := by
  unfold Running; decide

theorem witness_HaltedIsSetOnlyByTrap25 :
    { machine 0x3001 0 [] with halted := true }.halted = true ∧
    (∃ t, step (machine 0x3000 0 [(0x3000, 0xF025)]) = .next t ∧ t.halted = true) ∧
    (∃ t, step (machine 0x3000 0 [(0x3000, 0xF026)]) = .next t ∧ t.halted = false) ∧
    ∃ t, boot (launchOf 0x3000 [0xF0, 0x25]) = .next t := ⟨rfl, ⟨_, rfl, rfl⟩, ⟨_, rfl, rfl⟩, _, rfl⟩

theorem witness_StepStopsOnlyOnReservedWords :
    step (machine 0x3000 0 [(0x3000, 0x8000)]) = .refused (.reservedOpcode 8) ∧
    step (machine 0x3000 0 [(0x3000, 0xD000)]) = .refused (.reservedOpcode 13) ∧
    step (refusing (machine 0x3000 0 [(0x3000, 0xC000)])) = .refused .pcZero ∧
    ∃ t, step (machine 0x3000 0 [(0x3000, 0xC000)]) = .next t := ⟨rfl, rfl, rfl, _, rfl⟩

theorem witness_PcZeroPolicyDecidesAddressZero :
    (Running (machine 0x3000 0 [(0x3000, 0xC000)]) ∧
      decodeWord ((machine 0x3000 0 [(0x3000, 0xC000)]).memRead 0x3000) = .jmp 0 ∧
      (machine 0x3000 0 [(0x3000, 0xC000)]).readReg 0 = 0) ∧
    (∃ t, step (refusing (machine 0xFFFF 0 [(0xFFFF, 0xF025)])) = .next t ∧ t.pc = 0 ∧ t.halted = true) ∧
    ∃ t, step (refusing (machine 0xFFFF 0 [(0xFFFF, 0xF020)])) = .next t ∧ t.pc = 0 ∧ t.waiting = true :=
  ⟨⟨⟨rfl, rfl⟩, rfl, rfl⟩, ⟨_, rfl, rfl, rfl⟩, ⟨_, rfl, rfl, rfl⟩⟩

/-- The steps to 0x0000 that R183 lists beside JMP, under `ordinary`: a branch, a JSR, the step past 0xFFFF. -/
theorem witness_PcZeroPolicyDecidesAddressZero_ordinary :
    (machine 0xFFFF 0b001 [(0xFFFF, 0x0E00)]).cfg.pcZeroPolicy = .ordinary ∧
    (∃ t, step (machine 0xFFFF 0b001 [(0xFFFF, 0x0E00)]) = .next t ∧ t.pc = 0) ∧
    (∃ t, step (machine 0xFFFF 0b001 [(0xFFFF, 0x4000)]) = .next t ∧ t.pc = 0) ∧
    ∃ t, step (machine 0xFFFF 0b001 [(0xFFFF, 0x1261)]) = .next t ∧ t.pc = 0 :=
  ⟨rfl, ⟨_, rfl, rfl⟩, ⟨_, rfl, rfl⟩, ⟨_, rfl, rfl⟩⟩

theorem witness_FlagsClassifyTheWrittenResult :
    flagDest (.addReg 1 2 3) = some 1 ∧ flagDest (.addImm 1 2 3) = some 1 ∧ flagDest (.andReg 1 2 3) = some 1 ∧
    flagDest (.andImm 1 2 3) = some 1 ∧ flagDest (.not 1 2) = some 1 ∧ flagDest (.ld 1 2) = some 1 ∧
    flagDest (.ldr 1 2 3) = some 1 ∧ flagDest (.ldi 1 2) = some 1 ∧ flagDest (.lea 7 2) = some 7 := by decide

theorem witness_CcHasSevenWritersAndOneReader :
    (flagDest (.st 1 2) = none ∧ ∃ t, exec (.st 1 2) (machine 0x3001 0b111 []) = .next t) ∧
    (flagDest (.lea 1 2) ≠ none ∧ ∃ t, exec (.lea 1 2) (machine 0x3001 0b000 []) = .next t) ∧
    (∀ x off9, Instr.jmp 1 ≠ .br x off9) ∧
    OneHot 0b010 ∧ ∃ t, step (machine 0x3000 0b010 [(0x3000, 0x1261)]) = .next t :=
  ⟨⟨rfl, _, rfl⟩, ⟨by decide, _, rfl⟩, fun _ _ => Instr.noConfusion, .inr (.inl rfl), _, rfl⟩

theorem witness_RegisterAccessTableIsComplete :
    (∃ t, exec (.jsr 0) (machine 0x3001 0 []) = .next t) ∧
    ((6 : RegNum) ∉ regsRead (.ldr 1 2 0) ∧ (6 : RegNum) ∉ regsWritten (.ldr 1 2 0)) ∧
    ((7 : RegNum) ∉ regsRead (.jsr 0) ∧ (7 : RegNum) ∈ regsWritten (.jsr 0) ∧
      ∃ t, exec (.jsr 0) (machine 0x3001 0 []) = .next t ∧ t.waiting = false) :=
  ⟨⟨_, rfl⟩, by decide, by decide, by decide, _, rfl, rfl⟩

theorem witness_MemoryAccessTableIsComplete :
    (∃ t, exec (.sti 1 1) (machine 0x3001 0 [(0x3002, 0x4000)]) = .next t) ∧
    (machine 0x3001 0 [(0x3002, 0x4000)]).mem.wf ∧
    ((0x3003 : Word) ∉ cellsRead (.sti 1 1) (machine 0x3001 0 [(0x3002, 0x4000)]) ∧
      (0x3003 : Word) ∉ cellsWritten (.sti 1 1) (machine 0x3001 0 [(0x3002, 0x4000)])) ∧
    ((0x4000 : Word) ∉ cellsRead (.sti 1 1) (machine 0x3001 0 [(0x3002, 0x4000)]) ∧
      (0x4000 : Word) ∈ cellsWritten (.sti 1 1) (machine 0x3001 0 [(0x3002, 0x4000)])) :=
  ⟨⟨_, rfl⟩, by decide, by decide, by decide⟩

theorem witness_OutputExtendedOnlyByTrap21 :
    Running (machine 0x3000 0 [(0x3000, 0xF021)]) ∧
    decodeWord ((machine 0x3000 0 [(0x3000, 0xF021)]).memRead 0x3000) = .trap 0x21 ∧
    ∃ t, boot (launchOf 0x3000 [0xF0, 0x21]) = .next t := ⟨⟨rfl, rfl⟩, rfl, _, rfl⟩

theorem witness_InputIsConsumedOneByteAtATime :
    (∃ t, step { machine 0x3000 0 [(0x3000, 0xF020)] with input := [0x41] } = .next t ∧ t.consumed = 1) ∧
    InTrapIn { machine 0x3000 0 [(0x3000, 0xF020)] with input := [0x41] } ∧
    InTrapIn waitingState ∧
    (Running (machine 0x3000 0 [(0x3000, 0xF020)]) ∧ InputPending (machine 0x3000 0 [(0x3000, 0xF020)])) :=
  ⟨⟨_, rfl, rfl⟩, ⟨rfl, .inr rfl⟩, ⟨rfl, .inl rfl⟩, ⟨rfl, rfl⟩, ⟨rfl, rfl, rfl⟩⟩

theorem witness_RunParametersNeverChange :
    ∃ t, Sys2Proof.core.run 2 (machine 0x3000 0 [(0x3000, 0x1261), (0x3001, 0x127F)]) = .next t := ⟨_, rfl⟩

/-- A state of each run state that meets the invariant, and a step from it. -/
theorem witness_InvariantKeptByEveryStep :
    (Inv waitingState ∧ ∃ t, step (waitingState.deliver 0x42) = .next t) ∧
    (Inv (machine 0x3000 0 [(0x3000, 0x3600)]) ∧ ∃ t, step (machine 0x3000 0 [(0x3000, 0x3600)]) = .next t) ∧
    (Inv { machine 0x3001 0 [] with halted := true } ∧ ∃ t, step { machine 0x3001 0 [] with halted := true } = .next t) :=
  ⟨⟨⟨by decide, by decide, by decide, by decide, by decide⟩, _, rfl⟩,
   ⟨⟨by decide, by decide, by decide, by decide, by decide⟩, _, rfl⟩,
   ⟨by decide, by decide, by decide, by decide, by decide⟩, _, rfl⟩

theorem witness_InvariantHoldsAfterEveryLaunch :
    (launchOf 0x3000 [0xF0, 0x25]).memInit.wf ∧ ∃ t, boot (launchOf 0x3000 [0xF0, 0x25]) = .next t := ⟨by decide, _, rfl⟩

theorem witness_InvariantKeptByTheEnvironment : Inv waitingState :=
  ⟨by decide, by decide, by decide, by decide, by decide⟩

/-- A launch whose image fills memory to its last cell, and one with a cell on each side of the image. -/
theorem witness_LaunchEstablishesTheResetState :
    (launchOf 0xFFFF [0x12, 0x34]).cfg.origin ≠ 0 ∧
    (launchOf 0xFFFF [0x12, 0x34]).image.length / 2 = 65536 - (launchOf 0xFFFF [0x12, 0x34]).cfg.origin.toNat ∧
    (launchOf 0xFFFF [0x12, 0x34]).memInit.wf ∧ 2 * 0 + 1 < (launchOf 0xFFFF [0x12, 0x34]).image.length ∧
    (0xFFFE : Word).toNat < (launchOf 0xFFFF [0x12, 0x34]).cfg.origin.toNat ∧
    (launchOf 0x3000 [0x12, 0x34]).cfg.origin.toNat + (launchOf 0x3000 [0x12, 0x34]).image.length / 2 ≤ (0x3001 : Word).toNat := by
  decide

theorem witness_LaunchCorners :
    (launchOf 0x3000 [0x12, 0x34]).image.length % 2 = 0 ∧
    ((launchOf 0xFFFF [0x12, 0x34, 0x56, 0x78]).cfg.origin ≠ 0 ∧
      65536 - (launchOf 0xFFFF [0x12, 0x34, 0x56, 0x78]).cfg.origin.toNat <
        (launchOf 0xFFFF [0x12, 0x34, 0x56, 0x78]).image.length / 2) ∧
    (launchOf 0x0000 []).cfg.origin = 0 := by decide

end Sys2Proof.Tests
end

/-! # State family: proofs of O9, O41, O42, O45, O52 -/

namespace Sys2Proof.Machine

/-! ## The end of a step -/

/-- Where every next state is under the ordinary policy, the end of a step changes nothing. -/
theorem endStep_ordinary (o : Host.Outcome State Fault Refusal)
    (h : ∀ t, o = .next t → t.cfg.pcZeroPolicy = .ordinary) : endStep o = o := by
  cases o with
  | next t => exact pcZeroCheck_ordinary t (h t rfl)
  | fault r => rfl
  | refused r => rfl

/-- A change of state that the PC check does not see passes through the end of a step. -/
theorem endStep_mapNext (f : State → State) (o : Host.Outcome State Fault Refusal)
    (h : ∀ t, (f t).cfg = t.cfg ∧ (f t).pc = t.pc ∧ (f t).halted = t.halted ∧ (f t).waiting = t.waiting) :
    endStep (mapNext f o) = mapNext f (endStep o) := by
  cases o with
  | next t =>
    obtain ⟨hcfg, hpc, hhalt, hwait⟩ := h t
    simp only [mapNext, endStep, pcZeroCheck, hcfg, hpc, hhalt, hwait]
    split <;> rfl
  | fault r => rfl
  | refused r => rfl

/-! ## The input service, one equation per case -/

/-- With a byte ready, the input service consumes it and R0 takes it (spec 43_trap.md R132). -/
theorem trapIn_of_byteReady (s : State) (b : Byte) (h : ByteReady s b) :
    trapIn s = .next (s.consumeByte.writeReg 0 (zext8 b)) := by
  obtain ⟨hend, hbyte⟩ := h
  simp [trapIn, State.consoleIn, hend, hbyte]

/-- Once the end of input is reached, R0 takes the sentinel (R133). -/
theorem trapIn_of_endReached (s : State) (h : s.endReached = true) :
    trapIn s = .next (s.writeReg 0 s.cfg.eofSentinel) := by
  simp [trapIn, State.consoleIn, h]

/-- With every byte consumed and the stream ended, the input service reaches the end of input (R132). -/
theorem trapIn_of_lastByteConsumed (s : State) (hend : s.endReached = false) (hbyte : s.input[s.consumed]? = none)
    (hclosed : s.inputClosed = true) : trapIn s = .next (s.reachEnd.writeReg 0 s.cfg.eofSentinel) := by
  simp [trapIn, State.consoleIn, hend, hbyte, hclosed]

/-- With neither a byte nor the end of input, the engine waits (R137). -/
theorem trapIn_of_inputPending (s : State) (h : InputPending s) : trapIn s = .next (s.setWaiting true) := by
  obtain ⟨hend, hbyte, hclosed⟩ := h
  simp [trapIn, State.consoleIn, hend, hbyte, hclosed]

/-- The input service neither reads nor changes CC and the output. -/
theorem trapIn_ignores_cc_output (s : State) (f : CondBits → CondBits) (g : List Byte → List Byte) :
    trapIn { s with cc := f s.cc, output := g s.output } =
      mapNext (fun t => { t with cc := f t.cc, output := g t.output }) (trapIn s) := by
  rcases trapIn_cases s with ⟨b, hend, hbyte, h⟩ | ⟨hend, h⟩ | ⟨hend, hbyte, hclosed, h⟩ | ⟨hend, hbyte, hclosed, h⟩ <;>
    rw [h]
  · exact trapIn_of_byteReady _ b ⟨hend, hbyte⟩
  · exact trapIn_of_endReached _ hend
  · exact trapIn_of_lastByteConsumed _ hend hbyte hclosed
  · exact trapIn_of_inputPending _ ⟨hend, hbyte, hclosed⟩

/-! ## The condition codes -/

/-- The CC value of a result classifies it (spec 10_state.md R24). -/
theorem condOf_classifies (v : Word) : Classifies (condOf v) v := by
  have hmsb : v.msb = true ↔ v.toInt < 0 := by rw [BitVec.msb_eq_toInt]; simp
  have hzero : v = 0 ↔ v.toInt = 0 := by rw [← BitVec.toInt_inj]; simp
  refine ⟨fun h => ?_, fun h => ?_, fun h => ?_⟩
  · simp [condOf, hmsb.2 h]
  · simp [condOf, hzero.2 h]
  · rw [condOf, if_neg (by rw [hmsb]; omega), if_neg (by rw [hzero]; omega)]

/-- The CC value of a result has exactly one bit set (R24). -/
theorem condOf_oneHot (v : Word) : OneHot (condOf v) := by
  unfold condOf
  split
  · exact .inl rfl
  · split
    · exact .inr (.inl rfl)
    · exact .inr (.inr rfl)

/-- A flag-setting instruction ends by writing its result, a value computed without CC (R25). -/
theorem exec_flagSetting (i : Instr) (x : RegNum) (h : flagDest i = some x) :
    ∃ result : State → Word, (∀ s, exec i s = .next (s.writeResult x (result s))) ∧
      ∀ s c, result { s with cc := c } = result s := by
  cases i <;> cases h <;> exact ⟨fun _ => _, fun _ => rfl, fun _ _ => rfl⟩

/-- An instruction that neither sets the flags nor branches carries CC along unread (R25). -/
theorem exec_carries_cc (i : Instr) (s : State) (c : CondBits) (hdest : flagDest i = none)
    (hbr : ∀ x off9, i ≠ .br x off9) :
    exec i { s with cc := c } = mapNext (fun t => { t with cc := c }) (exec i s) := by
  cases i with
  | br x off9 => exact absurd rfl (hbr x off9)
  | st | str | sti | jsr | jmp | reserved8 | reserved13 => rfl
  | trap v =>
    rcases trap_vector_cases v with rfl | rfl | rfl | ⟨h0, h1, h2⟩
    · exact trapIn_ignores_cc_output s (fun _ => c) id
    · rfl
    · rfl
    · rw [exec_trap_other _ v h0 h1 h2, exec_trap_other _ v h0 h1 h2]; rfl
  | _ => cases hdest

/-- No instruction but the seven of `flagDest` changes CC (R25). -/
theorem exec_keeps_cc (i : Instr) (s t : State) (hdest : flagDest i = none) (h : exec i s = .next t) :
    t.cc = s.cc := by
  by_cases hbr : ∃ x off9, i = .br x off9
  · obtain ⟨x, off9, rfl⟩ := hbr
    by_cases hc : s.cc &&& x = 0
    · rw [exec_br_not_taken s x off9 hc] at h; cases h; rfl
    · rw [exec_br_taken s x off9 hc] at h; cases h; rfl
  · have hcarry := exec_carries_cc i s s.cc hdest fun x off9 e => hbr ⟨x, off9, e⟩
    rw [show { s with cc := s.cc } = s from rfl, h] at hcarry
    injection hcarry with ht
    rw [ht]

/-- A flag-setting instruction leaves exactly one bit of CC set (R24). -/
theorem exec_flagSetting_oneHot (i : Instr) (s t : State) (hdest : flagDest i ≠ none) (h : exec i s = .next t) :
    OneHot t.cc := by
  obtain ⟨x, hx⟩ := Option.ne_none_iff_exists'.1 hdest
  obtain ⟨result, hexec, -⟩ := exec_flagSetting i x hx
  cases h.symm.trans (hexec s)
  exact condOf_oneHot _

/-- Once exactly one bit of CC is set, every instruction keeps that. -/
theorem exec_keeps_oneHot (i : Instr) (s t : State) (hs : OneHot s.cc) (h : exec i s = .next t) : OneHot t.cc := by
  by_cases hdest : flagDest i = none
  · rw [exec_keeps_cc i s t hdest h]; exact hs
  · exact exec_flagSetting_oneHot i s t hdest h

/-- Once exactly one bit of CC is set, every step keeps that. -/
theorem step_keeps_oneHot (s t : State) (hs : OneHot s.cc) (h : step s = .next t) : OneHot t.cc := by
  rcases step_cases s t h with ⟨-, rfl⟩ | ⟨-, -, hin⟩ | ⟨-, -, hex⟩
  · exact hs
  · exact exec_keeps_oneHot (.trap 0x20) (s.setWaiting false) t hs hin
  · exact exec_keeps_oneHot _ s.fetch t hs hex

/-! ## The launch -/

/-- The state an admissible launch starts in (spec 10_state.md R35, 70_reset_and_hazards.md R172). -/
def Launch.start (l : Launch) : State where
  regs := l.regReset
  cc := l.ccReset
  pc := l.cfg.origin
  ir := 0x0000
  halted := false
  waiting := false
  mem := loadWords l.memInit l.cfg.origin.toNat (imageWords l.image)
  input := l.input
  inputClosed := l.inputClosed
  consumed := 0
  endReached := false
  output := []
  cfg := l.cfg

/-- A launch answers a state exactly for an origin other than 0 and an image that fits; the state is `Launch.start`. -/
theorem boot_eq_next (l : Launch) (t : State) :
    boot l = .next t ↔
      l.cfg.origin ≠ 0 ∧ l.image.length / 2 ≤ 65536 - l.cfg.origin.toNat ∧ t = l.start := by
  unfold boot
  rw [imageWords_length]
  split
  · rename_i hzero
    exact ⟨nofun, fun ⟨horigin, _, _⟩ => absurd hzero horigin⟩
  · split
    · exact ⟨nofun, fun ⟨_, hfits, _⟩ => by omega⟩
    · rename_i horigin hfits
      rw [Host.Outcome.next.injEq]
      exact ⟨fun h => ⟨horigin, by omega, h.symm⟩, fun ⟨_, _, h⟩ => h.symm⟩

/-- The `k`-th word of an image is its bytes `2 * k` (high) and `2 * k + 1` (low) (R172). -/
theorem imageWords_getElem : ∀ (bytes : List Byte) (k : Nat) (h : 2 * k + 1 < bytes.length),
    (imageWords bytes)[k]'(by rw [imageWords_length]; omega) = wordOfBytes bytes[2 * k] bytes[2 * k + 1]
  | [], k, h | [_], k, h => by simp at h
  | _ :: _ :: _, 0, _ => rfl
  | _ :: _ :: rest, k + 1, h => imageWords_getElem rest k (by simp only [List.length_cons] at h; omega)

/-- A cell of the image holds its two bytes after the launch, high byte first. -/
theorem Launch.start_memRead_image (l : Launch) (hwf : l.memInit.wf)
    (hfits : l.image.length / 2 ≤ 65536 - l.cfg.origin.toNat) (k : Nat) (h : 2 * k + 1 < l.image.length) :
    l.start.memRead (l.cfg.origin + BitVec.ofNat 16 k) = wordOfBytes l.image[2 * k] l.image[2 * k + 1] := by
  have hlen := imageWords_length l.image
  have horigin := l.cfg.origin.isLt
  have haddr : (l.cfg.origin + BitVec.ofNat 16 k).toNat = l.cfg.origin.toNat + k := by
    rw [BitVec.toNat_add, BitVec.toNat_ofNat]; omega
  calc l.start.memRead (l.cfg.origin + BitVec.ofNat 16 k)
      = l.start.mem.read (l.cfg.origin.toNat + k) := by rw [State.memRead, haddr]
    _ = (imageWords l.image)[k] := loadWords_read_in _ _ _ _ hwf (by omega) (by omega)
    _ = wordOfBytes l.image[2 * k] l.image[2 * k + 1] := imageWords_getElem _ _ h

/-- A cell on either side of the image holds its free value after the launch. -/
theorem Launch.start_memRead_outside (l : Launch) (a : Word)
    (h : a.toNat < l.cfg.origin.toNat ∨ l.cfg.origin.toNat + l.image.length / 2 ≤ a.toNat) :
    l.start.memRead a = l.memInit.read a.toNat := by
  rw [← imageWords_length] at h
  rcases h with hbelow | habove
  · exact loadWords_read_below _ _ _ _ hbelow
  · exact loadWords_read_above _ _ _ _ habove

/-! ## The output -/

/-- The bytes an instruction sends to the console (43_trap.md R134). -/
def bytesSent (i : Instr) (s : State) : List Byte :=
  if i = .trap 0x21 then [lowByte (s.readReg 0)] else []

/-- An instruction extends the output by the bytes it sends, whatever the output held before (10_state.md R33). -/
theorem exec_output (i : Instr) (s : State) (o : List Byte) :
    exec i { s with output := o } = mapNext (fun t => { t with output := o ++ bytesSent i s }) (exec i s) := by
  by_cases hout : i = .trap 0x21
  · subst hout; rfl
  rw [bytesSent, if_neg hout, List.append_nil]
  cases i with
  | br x off9 =>
    by_cases hc : s.cc &&& x = 0
    · rw [exec_br_not_taken s x off9 hc]; exact exec_br_not_taken { s with output := o } x off9 hc
    · rw [exec_br_taken s x off9 hc]; exact exec_br_taken { s with output := o } x off9 hc
  | trap v =>
    rcases trap_vector_cases v with rfl | rfl | rfl | ⟨h0, h1, h2⟩
    · exact trapIn_ignores_cc_output s id fun _ => o
    · exact absurd rfl hout
    · rfl
    · rw [exec_trap_other _ v h0 h1 h2, exec_trap_other _ v h0 h1 h2]; rfl
  | _ => rfl

/-- The step of a running engine extends the output by the bytes its instruction sends. -/
theorem step_running_output (s : State) (o : List Byte) (hrun : Running s) :
    step { s with output := o } =
      mapNext (fun t => { t with output := o ++ bytesSent (decodeWord (s.memRead s.pc)) s }) (step s) := by
  obtain ⟨hhalt, hwait⟩ := hrun
  rw [step_running s hhalt hwait]
  refine Eq.trans ?_ (endStep_mapNext _ _ fun _ => ⟨rfl, rfl, rfl, rfl⟩)
  calc step { s with output := o }
      = endStep (exec (decodeWord (s.memRead s.pc)) { s.fetch with output := o }) := step_running _ hhalt hwait
    _ = _ := congrArg endStep (exec_output _ s.fetch o)

/-- The step of an engine that does not run leaves the output alone and does not read it. -/
theorem step_not_running_output (s : State) (o : List Byte) (hrun : ¬ Running s) :
    step { s with output := o } = mapNext (fun t => { t with output := o }) (step s) := by
  by_cases hhalt : s.halted = true
  · rw [step_halted s hhalt]; exact step_halted { s with output := o } hhalt
  · have hhalt : s.halted = false := by simpa using hhalt
    have hwait : s.waiting = true := by simpa [Running, hhalt] using hrun
    rw [step_waiting s hhalt hwait]
    refine Eq.trans ?_ (endStep_mapNext _ _ fun _ => ⟨rfl, rfl, rfl, rfl⟩)
    calc step { s with output := o }
        = endStep (trapIn { s.setWaiting false with output := o }) := step_waiting _ hhalt hwait
      _ = _ := congrArg endStep (trapIn_ignores_cc_output (s.setWaiting false) id fun _ => o)

/-! ## The obligations -/

/-- Settles O9: under the ordinary policy the check after `exec` lets everything through, as no instruction changes the
parameters. -/
theorem stepIsFetchIncrementExecute : Obligations.StepIsFetchIncrementExecute := by
  rintro s ⟨hhalt, hwait⟩ hord
  rw [step_running s hhalt hwait]
  refine endStep_ordinary _ fun t ht => ?_
  obtain ⟨-, hcfg, -, -⟩ := exec_keeps s.fetch _ t ht
  rw [hcfg]; exact hord

/-- Settles O41: every flag-setting instruction ends in `writeResult`, which classifies the value it writes. -/
theorem flagsClassifyTheWrittenResult : Obligations.FlagsClassifyTheWrittenResult := by
  intro i x s hx
  obtain ⟨result, hexec, -⟩ := exec_flagSetting i x hx
  refine ⟨_, hexec s, ?_, condOf_oneHot _⟩
  rw [State.readReg_writeResult, if_pos rfl]
  exact condOf_classifies _

/-- Settles O42: the flag-setting instructions write a result, the others but BR carry CC along unread. -/
theorem ccHasSevenWritersAndOneReader : Obligations.CcHasSevenWritersAndOneReader := by
  refine ⟨exec_keeps_cc, exec_flagSetting_oneHot, fun i s c hbr => ?_, fun l t h => ?_, step_keeps_oneHot⟩
  · cases hdest : flagDest i with
    | none => simpa using exec_carries_cc i s c hdest hbr
    | some x =>
      obtain ⟨result, hexec, hcc⟩ := exec_flagSetting i x hdest
      rw [hexec, hexec, hcc]; rfl
  · obtain ⟨-, -, rfl⟩ := (boot_eq_next l t).1 h
    rfl

/-- Settles O45: the bytes of a step are those its fetched instruction sends, none when the engine does not run. -/
theorem outputExtendedOnlyByTrap21 : Obligations.OutputExtendedOnlyByTrap21 := by
  refine ⟨fun s => ?_, fun l t h => ?_⟩
  · by_cases hrun : Running s
    · exact ⟨bytesSent (decodeWord (s.memRead s.pc)) s, fun ⟨_, hout⟩ => if_pos hout,
        fun hout => if_neg fun h => hout ⟨hrun, h⟩, fun o => step_running_output s o hrun⟩
    · refine ⟨[], fun hout => absurd hout.1 hrun, fun _ => rfl, fun o => ?_⟩
      simpa using step_not_running_output s o hrun
  · obtain ⟨-, -, rfl⟩ := (boot_eq_next l t).1 h
    rfl

/-- Settles O52: the launch answers `Launch.start`, whose memory the laws of the load describe. -/
theorem launchEstablishesTheResetState : Obligations.LaunchEstablishesTheResetState := by
  intro l horigin hfits
  refine ⟨l.start, (boot_eq_next l _).2 ⟨horigin, hfits, rfl⟩, rfl, rfl, rfl, fun _ => rfl, rfl, rfl, rfl, rfl, rfl,
    fun hwf k h => ?_, l.start_memRead_outside⟩
  rw [l.start_memRead_image hwf hfits k h, wordOfBytes_toNat]

end Sys2Proof.Machine

/-! # Memory family: proof of O11 -/

namespace Sys2Proof.Machine

/-! ## Sums with a sign-extended field -/

/-- A word plus a sign-extended field is the exact sum with the field's signed value, modulo 65536
(spec 20_memory.md R43): sign extension keeps that value modulo 65536, at every field width. -/
theorem toNat_add_signExtend {n : Nat} (v : Word) (f : BitVec n) :
    ((v + f.signExtend 16).toNat : Int) = ((v.toNat : Int) + f.toInt) % 65536 := by
  have hext : ((f.signExtend 16).toNat : Int) = f.toInt % 65536 := by
    rw [BitVec.signExtend, BitVec.toNat_ofInt]; omega
  rw [BitVec.toNat_add]; omega

/-- The PC-relative address as a number. -/
theorem State.relAddr_toNat (s : State) (off9 : BitVec 9) :
    ((s.relAddr off9).toNat : Int) = ((s.pc.toNat : Int) + off9.toInt) % 65536 :=
  toNat_add_signExtend s.pc off9

/-- The base-plus-offset address as a number. -/
theorem State.baseAddr_toNat (s : State) (y : RegNum) (off6 : BitVec 6) :
    ((s.baseAddr y off6).toNat : Int) = (((s.readReg y).toNat : Int) + off6.toInt) % 65536 :=
  toNat_add_signExtend (s.readReg y) off6

/-! ## The obligation -/

/-- Settles O11: both offset modes add a sign-extended field to a word; the indirect address is the pointer cell's
content by definition. -/
theorem effectiveAddressesWrap : Obligations.EffectiveAddressesWrap := by
  intro s y off6 off9
  exact ⟨s.relAddr_toNat off9, s.baseAddr_toNat y off6, rfl⟩

end Sys2Proof.Machine

/-! # Encoding family: proofs of O6, O7, O8 -/

namespace Sys2Proof

/-! ## The opcode of a decoded word -/

/-- The opcode field from the four bits that `decodeWord` reads (spec 30_encoding.md R61). -/
theorem opcField_eq_bits (w : Word) :
    opcField w = BitVec.ofBoolListLE [w.getLsbD 12, w.getLsbD 13, w.getLsbD 14, w.getLsbD 15] := by
  refine BitVec.eq_of_getLsbD_eq fun k hk => ?_
  rw [opcField, BitVec.getLsbD_extractLsb']
  interval_cases k <;> simp [BitVec.ofBoolListLE]

/-- The opcode field as a number: the word without its low twelve bits. -/
theorem opcField_toNat (w : Word) : (opcField w).toNat = w.toNat / 4096 := by
  rw [opcField, BitVec.extractLsb'_toNat, Nat.shiftRight_eq_div_pow]; omega

/-- Decoding keeps the opcode: no word decodes to an instruction of another opcode value (R70). The two forms of ADD and
of AND, which the mode bit selects, share theirs. -/
theorem decodeWord_opcode (w : Word) : (decodeWord w).opcode = opcField w := by
  rw [opcField_eq_bits, decodeWord]
  cases w.getLsbD 15 <;> cases w.getLsbD 14 <;> cases w.getLsbD 13 <;> cases w.getLsbD 12
  case false.false.false.true | false.true.false.true => cases modeBit w <;> rfl
  all_goals rfl

/-- The words of one opcode value are the 4096 words from 4096 times that value on. -/
theorem decodeWord_opcode_eq_iff (w : Word) (opc : BitVec 4) :
    (decodeWord w).opcode = opc ↔ opc.toNat * 4096 ≤ w.toNat ∧ w.toNat < opc.toNat * 4096 + 4096 := by
  rw [decodeWord_opcode, ← BitVec.toNat_inj, opcField_toNat]; omega

/-- Opcode 8 belongs to the one reserved instruction only (R72). -/
theorem Instr.opcode_eq_8_iff (i : Instr) : i.opcode = 8 ↔ i = .reserved8 := by
  cases i <;> simp [Instr.opcode]

/-- Opcode 13 belongs to the other reserved instruction only (R72). -/
theorem Instr.opcode_eq_13_iff (i : Instr) : i.opcode = 13 ↔ i = .reserved13 := by
  cases i <;> simp [Instr.opcode]

/-- The words of opcode 8 as a range. -/
theorem decodeWord_eq_reserved8_iff (w : Word) :
    0x8000 ≤ w.toNat ∧ w.toNat ≤ 0x8FFF ↔ decodeWord w = .reserved8 := by
  rw [← Instr.opcode_eq_8_iff, decodeWord_opcode_eq_iff]; exact and_congr_right' Nat.lt_succ_iff.symm

/-- The words of opcode 13 as a range. -/
theorem decodeWord_eq_reserved13_iff (w : Word) :
    0xD000 ≤ w.toNat ∧ w.toNat ≤ 0xDFFF ↔ decodeWord w = .reserved13 := by
  rw [← Instr.opcode_eq_13_iff, decodeWord_opcode_eq_iff]; exact and_congr_right' Nat.lt_succ_iff.symm

/-! ## The offset field of a PC-relative instruction -/

/-- The masked difference from the next address as a number (R78): 512 divides 65536, so the wrap of the address
arithmetic leaves no trace in nine bits. -/
theorem relativeField_toNat (a t : Word) :
    ((relativeField a t).toNat : Int) = ((t.toNat : Int) - (a.toNat + 1)) % 512 := by
  have hfield : (relativeField a t).toNat = (t - (a + 1)).toNat % 512 := rfl
  have hdiff : (t - (a + 1)).toNat = (65536 - (a.toNat + 1) % 65536 + t.toNat) % 65536 := BitVec.toNat_sub ..
  omega

end Sys2Proof

namespace Sys2Proof.Machine

/-! ## Sign extension of the low bits of a word -/

/-- The extension of the low `n` bits as a number (spec 30_encoding.md R66). -/
theorem toNat_signExtend_low (v : Word) (n : Nat) (hpos : 0 < n) (hn : n ≤ 16) :
    ((v.extractLsb' 0 n).signExtend 16).toNat =
      if v.getLsbD (n - 1) then v.toNat % 2 ^ n + (65536 - 2 ^ n) else v.toNat % 2 ^ n := by
  have hmsb : (v.extractLsb' 0 n).msb = v.getLsbD (n - 1) := by
    simp [BitVec.msb_eq_getLsbD_last, hpos]
  have hlow : ((v.extractLsb' 0 n).setWidth 16).toNat = v.toNat % 2 ^ n := by
    rw [BitVec.toNat_setWidth_of_le hn]; rfl
  rw [BitVec.toNat_signExtend, hmsb, hlow]
  split <;> rfl

/-- A word in the range of nine signed bits is the extension of its own low nine bits. -/
theorem sext9_low_of_fits (d : Word) (hlo : -256 ≤ d.toInt) (hhi : d.toInt ≤ 255) :
    sext9 (d.extractLsb' 0 9) = d := by
  refine BitVec.eq_of_toInt_eq ?_
  calc (sext9 (d.extractLsb' 0 9)).toInt
      = (d.extractLsb' 0 9).toInt := BitVec.toInt_signExtend_of_le (by decide)
    _ = (d.toNat : Int).bmod 512 := BitVec.toInt_extractLsb'
    _ = d.toInt := by rw [BitVec.toInt_eq_toNat_cond] at *; rw [Int.bmod_def]; omega

/-! ## A refused step -/

/-- A running engine's step is refused when its fetched instruction is. -/
theorem step_refused_of_exec (s : State) (r : Refusal) (hrun : Running s)
    (h : exec (decodeWord (s.memRead s.pc)) s.fetch = .refused r) : step s = .refused r := by
  obtain ⟨hhalt, hwait⟩ := hrun
  rw [step_running s hhalt hwait, h, endStep]

/-! ## The obligations -/

/-- Settles O6: a difference that fits in nine signed bits survives the mask and the extension, so adding it to the next
address gives the target. -/
theorem relativeFieldReachesItsTarget : Obligations.RelativeFieldReachesItsTarget := by
  refine fun a t => ⟨relativeField_toNat a t, fun hlo hhi => ?_⟩
  rw [relativeField, sext9_low_of_fits _ hlo hhi, add_sub_cancel]

/-- Settles O7: one lemma at the three widths, and the library's value of a sign extension. -/
theorem signExtensionIsTwosComplement : Obligations.SignExtensionIsTwosComplement := by
  refine ⟨fun v => ⟨?_, ?_, ?_⟩, fun f => ?_, fun f => ?_, fun f => ?_⟩
  · exact toNat_signExtend_low v 5 (by decide) (by decide)
  · exact toNat_signExtend_low v 6 (by decide) (by decide)
  · exact toNat_signExtend_low v 9 (by decide) (by decide)
  all_goals exact BitVec.toInt_signExtend_of_le (by decide)

/-- Settles O8: decoding keeps the opcode, which is the word divided by 4096; the refusal of `exec` is the step's. -/
theorem reservedWordsAreRefused : Obligations.ReservedWordsAreRefused := by
  refine ⟨fun w => ⟨decodeWord_eq_reserved8_iff w, decodeWord_eq_reserved13_iff w⟩, fun s => ⟨rfl, rfl⟩,
    fun s hrun => ⟨fun hlo hhi => step_refused_of_exec s _ hrun ?_, fun hlo hhi => step_refused_of_exec s _ hrun ?_⟩⟩
  · rw [(decodeWord_eq_reserved8_iff _).1 ⟨hlo, hhi⟩]; rfl
  · rw [(decodeWord_eq_reserved13_iff _).1 ⟨hlo, hhi⟩]; rfl

end Sys2Proof.Machine

/-! # Control family: proofs of O13, O14, O15 -/

namespace Sys2Proof

/-! ## Decoding from a masked word -/

/-- A word known under a mask is known at every bit of the mask. -/
theorem getLsbD_of_and_eq {w m v : Word} (h : w &&& m = v) {k : Nat} (hk : m.getLsbD k = true) :
    w.getLsbD k = v.getLsbD k := by
  rw [← h, BitVec.getLsbD_and, hk, Bool.and_true]

/-- The four bits that `decodeWord` reads first, of a word known under the opcode mask (spec 30_encoding.md R61). -/
theorem opcodeBits_of_and_eq {w v : Word} (h : w &&& 0xF000 = v) :
    w.getLsbD 15 = v.getLsbD 15 ∧ w.getLsbD 14 = v.getLsbD 14 ∧
      w.getLsbD 13 = v.getLsbD 13 ∧ w.getLsbD 12 = v.getLsbD 12 :=
  ⟨getLsbD_of_and_eq h (by decide), getLsbD_of_and_eq h (by decide), getLsbD_of_and_eq h (by decide),
    getLsbD_of_and_eq h (by decide)⟩

/-- Words 0x0000 to 0x0FFF are BR. -/
theorem decodeWord_eq_br (w : Word) (h : w &&& 0xF000 = 0x0000) : decodeWord w = .br (xField w) (off9Field w) := by
  obtain ⟨h15, h14, h13, h12⟩ := opcodeBits_of_and_eq h
  rw [decodeWord, h15, h14, h13, h12]; rfl

/-- Words 0x4000 to 0x4FFF are JSR. -/
theorem decodeWord_eq_jsr (w : Word) (h : w &&& 0xF000 = 0x4000) : decodeWord w = .jsr (off9Field w) := by
  obtain ⟨h15, h14, h13, h12⟩ := opcodeBits_of_and_eq h
  rw [decodeWord, h15, h14, h13, h12]; rfl

/-- Words 0xC000 to 0xCFFF are JMP. -/
theorem decodeWord_eq_jmp (w : Word) (h : w &&& 0xF000 = 0xC000) : decodeWord w = .jmp (yField w) := by
  obtain ⟨h15, h14, h13, h12⟩ := opcodeBits_of_and_eq h
  rw [decodeWord, h15, h14, h13, h12]; rfl

end Sys2Proof

namespace Sys2Proof.Machine

/-! ## The branch condition -/

/-- CC and the mask meet in the engine's test exactly when some bit is set in both (spec 40_control.md R90). -/
theorem and_ne_zero_iff_common_bit {n : Nat} (c x : BitVec n) :
    c &&& x ≠ 0 ↔ ∃ k, c.getLsbD k = true ∧ x.getLsbD k = true := by
  constructor
  · contrapose!
    intro hnone
    refine BitVec.eq_of_getLsbD_eq fun k _ => ?_
    cases hc : c.getLsbD k
    · simp [hc]
    · simp [hnone k hc]
  · rintro ⟨k, hc, hx⟩ hzero
    have hand : (c &&& x).getLsbD k = true := by rw [BitVec.getLsbD_and, hc, hx, Bool.and_true]
    simp [hzero] at hand

/-! ## The frame of a control transfer -/

/-- A state is its own frame. -/
theorem OnlyPcAndRegsChanged.refl (s : State) : OnlyPcAndRegsChanged [] s s :=
  ⟨fun _ _ => rfl, fun _ _ => rfl, rfl, ⟨rfl, rfl, rfl, rfl, rfl⟩, rfl, rfl, rfl, rfl⟩

/-- A write to a listed register stays in the frame. -/
theorem OnlyPcAndRegsChanged.writeReg {xs : List RegNum} {s t : State} (h : OnlyPcAndRegsChanged xs s t)
    (i : RegNum) (v : Word) : OnlyPcAndRegsChanged (i :: xs) s (t.writeReg i v) := by
  obtain ⟨hregs, hrest⟩ := h
  refine ⟨fun j hj => ?_, hrest⟩
  obtain ⟨hji, hjxs⟩ := not_or.1 (mt List.mem_cons.2 hj)
  rw [State.readReg_writeReg, if_neg hji, hregs j hjxs]

/-- A jump stays in the frame. -/
theorem OnlyPcAndRegsChanged.jump {xs : List RegNum} {s t : State} (h : OnlyPcAndRegsChanged xs s t) (a : Word) :
    OnlyPcAndRegsChanged xs s (t.jump a) := h

/-! ## The obligations -/

/-- Settles O13: the engine's test of CC against the mask splits the two cases, taken and not taken. -/
theorem branchTakenWhenCcMeetsMask : Obligations.BranchTakenWhenCcMeetsMask := by
  refine ⟨decodeWord_eq_br, fun s x off9 => ?_⟩
  rw [← and_ne_zero_iff_common_bit]
  by_cases hc : s.cc &&& x = 0
  · exact ⟨s, exec_br_not_taken s x off9 hc, fun htaken => absurd hc htaken, fun _ => rfl, .refl s⟩
  · exact ⟨_, exec_br_taken s x off9 hc, fun _ => s.relAddr_toNat off9, fun hnot => absurd hc hnot,
      (OnlyPcAndRegsChanged.refl s).jump _⟩

/-- Settles O14: JSR is a write to R7 and a jump, both inside the frame. -/
theorem jsrLinksAndJumps : Obligations.JsrLinksAndJumps := by
  refine ⟨decodeWord_eq_jsr, fun s off9 => ⟨_, exec_jsr s off9, ?_, s.relAddr_toNat off9, ?_⟩⟩
  · rw [State.jump_readReg, State.readReg_writeReg_same]
  · exact ((OnlyPcAndRegsChanged.refl s).writeReg 7 s.pc).jump _

/-- Settles O15: JMP is a jump to the register's value. -/
theorem jmpTakesTheRegister : Obligations.JmpTakesTheRegister :=
  ⟨decodeWord_eq_jmp, fun s y => ⟨_, exec_jmp s y, rfl, (OnlyPcAndRegsChanged.refl s).jump _⟩⟩

end Sys2Proof.Machine

/-! # Operate family: proofs of O17, O18, O19, O20, O21 -/

namespace Sys2Proof

/-! ## Decoding the two forms of ADD and AND -/

/-- The five bits that select a form of ADD or AND, of a word known under the mask of opcode and mode bit. -/
theorem opcodeAndModeBits_of_and_eq {w v : Word} (h : w &&& 0xF020 = v) :
    w.getLsbD 15 = v.getLsbD 15 ∧ w.getLsbD 14 = v.getLsbD 14 ∧
      w.getLsbD 13 = v.getLsbD 13 ∧ w.getLsbD 12 = v.getLsbD 12 ∧ modeBit w = v.getLsbD 5 :=
  ⟨getLsbD_of_and_eq h (by decide), getLsbD_of_and_eq h (by decide), getLsbD_of_and_eq h (by decide),
    getLsbD_of_and_eq h (by decide), getLsbD_of_and_eq h (by decide)⟩

/-- Words 0001 xxx yyy 0 -- rrr are ADD, register form. -/
theorem decodeWord_eq_addReg (w : Word) (h : w &&& 0xF020 = 0x1000) :
    decodeWord w = .addReg (xField w) (yField w) (rField w) := by
  obtain ⟨h15, h14, h13, h12, hmode⟩ := opcodeAndModeBits_of_and_eq h
  rw [decodeWord, h15, h14, h13, h12, hmode]; rfl

/-- Words 0001 xxx yyy 1 iiiii are ADD, immediate form. -/
theorem decodeWord_eq_addImm (w : Word) (h : w &&& 0xF020 = 0x1020) :
    decodeWord w = .addImm (xField w) (yField w) (imm5Field w) := by
  obtain ⟨h15, h14, h13, h12, hmode⟩ := opcodeAndModeBits_of_and_eq h
  rw [decodeWord, h15, h14, h13, h12, hmode]; rfl

/-- Words 0101 xxx yyy 0 -- rrr are AND, register form. -/
theorem decodeWord_eq_andReg (w : Word) (h : w &&& 0xF020 = 0x5000) :
    decodeWord w = .andReg (xField w) (yField w) (rField w) := by
  obtain ⟨h15, h14, h13, h12, hmode⟩ := opcodeAndModeBits_of_and_eq h
  rw [decodeWord, h15, h14, h13, h12, hmode]; rfl

/-- Words 0101 xxx yyy 1 iiiii are AND, immediate form. -/
theorem decodeWord_eq_andImm (w : Word) (h : w &&& 0xF020 = 0x5020) :
    decodeWord w = .andImm (xField w) (yField w) (imm5Field w) := by
  obtain ⟨h15, h14, h13, h12, hmode⟩ := opcodeAndModeBits_of_and_eq h
  rw [decodeWord, h15, h14, h13, h12, hmode]; rfl

/-- Words 0x9000 to 0x9FFF are NOT. -/
theorem decodeWord_eq_not (w : Word) (h : w &&& 0xF000 = 0x9000) : decodeWord w = .not (xField w) (yField w) := by
  obtain ⟨h15, h14, h13, h12⟩ := opcodeBits_of_and_eq h
  rw [decodeWord, h15, h14, h13, h12]; rfl

end Sys2Proof

namespace Sys2Proof.Machine

/-! ## The end of a flag-setting instruction -/

/-- The destination reads as the result. -/
@[simp] theorem State.readReg_writeResult_same (s : State) (x : RegNum) (v : Word) :
    (s.writeResult x v).readReg x = v := by
  rw [State.readReg_writeResult, if_pos rfl]

/-- The frame: the register write alone keeps CC and all else, and `setcc` then changes CC only. -/
theorem OnlyResultChanged.writeResult (s : State) (x : RegNum) (v : Word) :
    OnlyResultChanged x s (s.writeResult x v) := by
  obtain ⟨hregs, hmem, -, hconsole, hcontrol⟩ := (OnlyPcAndRegsChanged.refl s).writeReg x v
  exact ⟨hregs, hmem, rfl, hconsole, hcontrol⟩

/-- What an instruction that ends in `writeResult` does: it completes, a property of the result is a property of the
destination's new content, CC classifies that content, and nothing else changes (spec 10_state.md R24, R25). -/
theorem exec_completes_with_result {i : Instr} {s : State} {x : RegNum} {v : Word}
    (hexec : exec i s = .next (s.writeResult x v)) (P : Word → Prop) (hv : P v) :
    ∃ t, exec i s = .next t ∧ P (t.readReg x) ∧ Classifies t.cc (t.readReg x) ∧ OnlyResultChanged x s t := by
  refine ⟨_, hexec, ?_, ?_, .writeResult s x v⟩ <;> rw [State.readReg_writeResult_same]
  · exact hv
  · exact condOf_classifies v

/-! ## The immediate, bit by bit -/

/-- The bits of the extended immediate above bit 4 are its bit 4 (spec 30_encoding.md R67). -/
theorem sext5_getLsbD (f : BitVec 5) {k : Nat} (hk : k < 16) :
    (sext5 f).getLsbD k = if k < 5 then f.getLsbD k else f.getLsbD 4 := by
  rw [sext5, BitVec.getLsbD_signExtend, decide_eq_true hk, Bool.true_and, BitVec.msb_eq_getLsbD_last]

/-! ## The obligations -/

/-- Settles O17: the result is the word sum of the two sources as they stood before the write. -/
theorem addRegisterForm : Obligations.AddRegisterForm :=
  ⟨decodeWord_eq_addReg, fun s x y r =>
    exec_completes_with_result (exec_addReg s x y r) (fun v => v.toNat = _) (BitVec.toNat_add ..)⟩

/-- Settles O18: the result is the sum of a word and a sign-extended field, as in an address. -/
theorem addImmediateForm : Obligations.AddImmediateForm :=
  ⟨decodeWord_eq_addImm, fun s x y imm5 =>
    exec_completes_with_result (exec_addImm s x y imm5) (fun v => (v.toNat : Int) = _)
      (toNat_add_signExtend (s.readReg y) imm5)⟩

/-- Settles O19: the AND of two words is taken bit by bit. -/
theorem andRegisterForm : Obligations.AndRegisterForm :=
  ⟨decodeWord_eq_andReg, fun s x y r =>
    exec_completes_with_result (exec_andReg s x y r)
      (fun v => ∀ k < 16, v.getLsbD k = ((s.readReg y).getLsbD k && (s.readReg r).getLsbD k))
      fun _ _ => BitVec.getLsbD_and⟩

/-- Settles O20: the AND meets the immediate after its extension, whose high bits are the sign bit. -/
theorem andImmediateForm : Obligations.AndImmediateForm := by
  refine ⟨decodeWord_eq_andImm, fun s x y imm5 =>
    exec_completes_with_result (exec_andImm s x y imm5)
      (fun v => ∀ k < 16, v.getLsbD k =
        ((s.readReg y).getLsbD k && (if k < 5 then imm5.getLsbD k else imm5.getLsbD 4))) fun k hk => ?_⟩
  rw [BitVec.getLsbD_and, sext5_getLsbD imm5 hk]

/-- Settles O21: the complement within 16 bits is the distance from 65535. -/
theorem notComplements : Obligations.NotComplements :=
  ⟨decodeWord_eq_not, fun s x y =>
    exec_completes_with_result (exec_not s x y) (fun v => v.toNat = _) BitVec.toNat_not⟩

end Sys2Proof.Machine

/-! # Data movement family: proofs of O23, O24, O25, O26, O27, O28, O29 -/

namespace Sys2Proof

/-! ## Decoding the loads, the stores and LEA -/

/-- Words 0x2000 to 0x2FFF are LD. -/
theorem decodeWord_eq_ld (w : Word) (h : w &&& 0xF000 = 0x2000) : decodeWord w = .ld (xField w) (off9Field w) := by
  simp only [decodeWord, opcodeBits_of_and_eq h]; rfl

/-- Words 0x3000 to 0x3FFF are ST. -/
theorem decodeWord_eq_st (w : Word) (h : w &&& 0xF000 = 0x3000) : decodeWord w = .st (xField w) (off9Field w) := by
  simp only [decodeWord, opcodeBits_of_and_eq h]; rfl

/-- Words 0x6000 to 0x6FFF are LDR. -/
theorem decodeWord_eq_ldr (w : Word) (h : w &&& 0xF000 = 0x6000) :
    decodeWord w = .ldr (xField w) (yField w) (off6Field w) := by
  simp only [decodeWord, opcodeBits_of_and_eq h]; rfl

/-- Words 0x7000 to 0x7FFF are STR. -/
theorem decodeWord_eq_str (w : Word) (h : w &&& 0xF000 = 0x7000) :
    decodeWord w = .str (xField w) (yField w) (off6Field w) := by
  simp only [decodeWord, opcodeBits_of_and_eq h]; rfl

/-- Words 0xA000 to 0xAFFF are LDI. -/
theorem decodeWord_eq_ldi (w : Word) (h : w &&& 0xF000 = 0xA000) : decodeWord w = .ldi (xField w) (off9Field w) := by
  simp only [decodeWord, opcodeBits_of_and_eq h]; rfl

/-- Words 0xB000 to 0xBFFF are STI. -/
theorem decodeWord_eq_sti (w : Word) (h : w &&& 0xF000 = 0xB000) : decodeWord w = .sti (xField w) (off9Field w) := by
  simp only [decodeWord, opcodeBits_of_and_eq h]; rfl

/-- Words 0xE000 to 0xEFFF are LEA. -/
theorem decodeWord_eq_lea (w : Word) (h : w &&& 0xF000 = 0xE000) : decodeWord w = .lea (xField w) (off9Field w) := by
  simp only [decodeWord, opcodeBits_of_and_eq h]; rfl

end Sys2Proof

namespace Sys2Proof.Machine

/-! ## The end of a storing instruction -/

/-- The frame of a store: every cell but the one written reads as before. -/
theorem OnlyCellsChanged.memWrite (s : State) (a v : Word) : OnlyCellsChanged [a] s (s.memWrite a v) :=
  ⟨fun _ _ => rfl, fun _ hb => s.memRead_memWrite_other a _ v (List.ne_of_not_mem_cons hb), rfl, rfl,
    ⟨rfl, rfl, rfl, rfl, rfl⟩, rfl, rfl, rfl, rfl⟩

/-- What an instruction that ends in `memWrite` does: it completes, the cell reads as the stored value when the memory
was in canonical form, and nothing else changes (spec 42_data_movement.md R111, R113, R115). -/
theorem exec_completes_with_store {i : Instr} {s : State} {a v : Word} (hexec : exec i s = .next (s.memWrite a v)) :
    ∃ t, exec i s = .next t ∧ (s.mem.wf → t.memRead a = v) ∧ OnlyCellsChanged [a] s t :=
  ⟨_, hexec, fun hwf => s.memRead_memWrite_same hwf a v, .memWrite s a v⟩

/-! ## The obligations -/

/-- Settles O23: the result is the content of the cell at the PC-relative address. -/
theorem ldLoadsPcRelative : Obligations.LdLoadsPcRelative :=
  ⟨decodeWord_eq_ld, fun s x off9 => exec_completes_with_result (exec_ld s x off9) (· = _) rfl⟩

/-- Settles O24: ST is one store at the PC-relative address. -/
theorem stStoresPcRelative : Obligations.StStoresPcRelative :=
  ⟨decodeWord_eq_st, fun s x off9 => exec_completes_with_store (exec_st s x off9)⟩

/-- Settles O25: the address is taken from the state before the write, so equal registers need no case of their own. -/
theorem ldrLoadsBasePlusOffset : Obligations.LdrLoadsBasePlusOffset :=
  ⟨decodeWord_eq_ldr, fun s x y off6 => exec_completes_with_result (exec_ldr s x y off6) (· = _) rfl⟩

/-- Settles O26: STR is one store at the base-plus-offset address. -/
theorem strStoresBasePlusOffset : Obligations.StrStoresBasePlusOffset :=
  ⟨decodeWord_eq_str, fun s x y off6 => exec_completes_with_store (exec_str s x y off6)⟩

/-- Settles O27: the result, and so what CC classifies, is the content of the cell that the pointer names. -/
theorem ldiLoadsThroughPointer : Obligations.LdiLoadsThroughPointer :=
  ⟨decodeWord_eq_ldi, fun s x off9 => exec_completes_with_result (exec_ldi s x off9) (· = _) rfl⟩

/-- Settles O28: STI is one store at the pointer read before it, be it the pointer's own cell or another. -/
theorem stiStoresThroughPointer : Obligations.StiStoresThroughPointer :=
  ⟨decodeWord_eq_sti, fun s x off9 => exec_completes_with_store (exec_sti s x off9)⟩

/-- Settles O29: the result is the PC-relative address itself, the exact sum modulo 65536. -/
theorem leaLoadsTheAddress : Obligations.LeaLoadsTheAddress :=
  ⟨decodeWord_eq_lea, fun s x off9 =>
    exec_completes_with_result (exec_lea s x off9) (fun v => (v.toNat : Int) = _) (s.relAddr_toNat off9)⟩

end Sys2Proof.Machine

/-! # Trap family: proofs of O33, O35, O37 -/

namespace Sys2Proof

/-! ## Decoding the encodings with no effect -/

/-- A word under the opcode mask is its opcode field with twelve zeros behind it (spec 30_encoding.md R61). -/
theorem and_opcodeMask (w : Word) : w &&& 0xF000 = opcField w ++ 0#12 := by
  refine BitVec.eq_of_getLsbD_eq fun k hk => ?_
  rw [BitVec.getLsbD_and, BitVec.getLsbD_append, opcField, BitVec.getLsbD_extractLsb']
  interval_cases k <;> simp

/-- Words 0xF000 to 0xFFFF are TRAP. -/
theorem decodeWord_eq_trap (w : Word) (h : opcField w = 15) : decodeWord w = .trap (vect8Field w) := by
  have hmask : w &&& 0xF000 = 0xF000 := by rw [and_opcodeMask, h]; rfl
  simp only [decodeWord, opcodeBits_of_and_eq hmask]; rfl

/-- Words below 0x0200 are BR with mask 0. -/
theorem decodeWord_eq_br_zero (w : Word) (h : w.toNat < 512) : decodeWord w = .br 0 (off9Field w) := by
  have hopc : opcField w = 0 := BitVec.eq_of_toNat_eq (by rw [opcField_toNat]; exact Nat.div_eq_of_lt (by omega))
  have hmask : xField w = 0 := by
    refine BitVec.eq_of_toNat_eq ?_
    rw [xField, BitVec.extractLsb'_toNat, Nat.shiftRight_eq_div_pow, Nat.div_eq_of_lt h]; rfl
  rw [decodeWord_eq_br w (by rw [and_opcodeMask, hopc]; rfl), hmask]

end Sys2Proof

namespace Sys2Proof.Machine

/-! ## The bytes of the console as words -/

/-- The byte that `TRAP 0x21` writes, as a number (spec 43_trap.md R134). -/
theorem lowByte_toNat (v : Word) : (lowByte v).toNat = v.toNat % 256 := rfl

/-- A zero-extended input byte is below 256 (R132). -/
theorem zext8_toNat_lt (b : Byte) : (zext8 b).toNat < 256 := by
  rw [zext8, BitVec.toNat_setWidth_of_le (by decide)]; exact b.isLt

/-! ## The end of input -/

/-- The end of input, once reached, is not reached again. -/
theorem State.reachEnd_of_endReached (s : State) (h : s.endReached = true) : s.reachEnd = s := by
  rw [State.reachEnd, ← h]

/-- With the input exhausted, in either way, R0 takes the sentinel and the end is marked as reached (R133). -/
theorem trapIn_of_inputExhausted (s : State) (h : InputExhausted s) :
    trapIn s = .next (s.reachEnd.writeReg 0 s.cfg.eofSentinel) := by
  cases hend : s.endReached with
  | true => rw [s.reachEnd_of_endReached hend]; exact trapIn_of_endReached s hend
  | false =>
    obtain ⟨hbyte, hclosed⟩ := h.resolve_left (by simp [hend])
    exact trapIn_of_lastByteConsumed s hend hbyte hclosed

/-- No instruction takes the end of input back (R133). -/
theorem exec_keeps_endReached (i : Instr) (s t : State) (hs : s.endReached = true) (h : exec i s = .next t) :
    t.endReached = true := by
  cases i with
  | br x off9 =>
    by_cases hc : s.cc &&& x = 0
    · cases h.symm.trans (exec_br_not_taken s x off9 hc); exact hs
    · cases h.symm.trans (exec_br_taken s x off9 hc); exact hs
  | trap v =>
    rcases trap_vector_cases v with rfl | rfl | rfl | ⟨h0, h1, h2⟩
    · cases h.symm.trans (trapIn_of_endReached s hs); exact hs
    · cases h; exact hs
    · cases h; exact hs
    · cases h.symm.trans (exec_trap_other s v h0 h1 h2); exact hs
  | reserved8 | reserved13 => cases h
  | _ => cases h; exact hs

/-! ## What every step and every run keep -/

/-- What the fetch, the end of a wait and every instruction keep, every step keeps. -/
theorem step_keeps {P : State → Prop} (hfetch : ∀ s, P s → P s.fetch) (hresume : ∀ s, P s → P (s.setWaiting false))
    (hexec : ∀ i s t, P s → exec i s = .next t → P t) (s t : State) (hs : P s) (h : step s = .next t) : P t := by
  rcases step_cases s t h with ⟨-, rfl⟩ | ⟨-, -, hin⟩ | ⟨-, -, hex⟩
  · exact hs
  · exact hexec (.trap 0x20) _ t (hresume s hs) hin
  · exact hexec _ _ t (hfetch s hs) hex

/-- A run of `k + 1` steps that ends in a state is a first step and a run of `k` more. -/
theorem run_succ_eq_next (M : Host.Core) (k : Nat) (s t : M.State) :
    M.run (k + 1) s = .next t ↔ ∃ u, M.step s = .next u ∧ M.run k u = .next t := by
  rw [Host.Core.run]
  cases M.step s <;> simp

/-- What every step keeps, every run keeps. -/
theorem run_keeps {P : State → Prop} (hstep : ∀ s t, P s → step s = .next t → P t) (n : Nat) (s t : State)
    (hs : P s) (h : Sys2Proof.core.run n s = .next t) : P t := by
  induction n generalizing s with
  | zero => cases h; exact hs
  | succ n ih =>
    obtain ⟨u, hfirst, hrest⟩ := (run_succ_eq_next Sys2Proof.core n s t).1 h
    exact ih u (hstep s u hs hfirst) hrest

/-- No step changes the parameters of the run (10_state.md R36). -/
theorem step_keeps_cfg (c : Config) (s t : State) (hs : s.cfg = c) (h : step s = .next t) : t.cfg = c := by
  refine step_keeps (P := fun u => u.cfg = c) (fun _ hu => hu) (fun _ hu => hu) (fun i u v hu hex => ?_) s t hs h
  obtain ⟨-, hcfg, -, -⟩ := exec_keeps u i v hex
  exact hcfg.trans hu

/-- No step takes the end of input back (43_trap.md R133). -/
theorem step_keeps_endReached (s t : State) (hs : s.endReached = true) (h : step s = .next t) :
    t.endReached = true :=
  step_keeps (P := fun u => u.endReached = true) (fun _ hu => hu) (fun _ hu => hu) exec_keeps_endReached s t hs h

/-! ## A step with no effect -/

/-- A running engine whose instruction changes nothing moves on to the next address, where the PC check allows it. -/
theorem step_eq_fetch_of_exec_noEffect (s : State) (hrun : Running s)
    (hpc : s.cfg.pcZeroPolicy = .ordinary ∨ s.pc + 1 ≠ 0)
    (h : exec (decodeWord (s.memRead s.pc)) s.fetch = .next s.fetch) : step s = .next s.fetch := by
  obtain ⟨hhalt, hwait⟩ := hrun
  rw [step_running s hhalt hwait, endStep_eq_next]
  refine ⟨h, fun ⟨hrefuse, hzero, _, _⟩ => ?_⟩
  rcases hpc with hord | hne
  · exact absurd (hrefuse.symm.trans hord) nofun
  · exact hne hzero

/-! ## The obligations -/

/-- Settles O33: the two ways of being exhausted end in the same write to R0; the mark of the end and the parameters,
which every step keeps, give the same answer later. -/
theorem endOfInputGivesTheSentinelForEver : Obligations.EndOfInputGivesTheSentinelForEver := by
  refine ⟨⟨rfl, fun b hb => ?_⟩, fun s hs => ?_, fun n s t hs h => ?_⟩
  · have hlt := zext8_toNat_lt b
    rw [hb] at hlt
    exact absurd hlt (by decide)
  · obtain ⟨hregs, -⟩ := (OnlyPcAndRegsChanged.refl s.reachEnd).writeReg 0 s.cfg.eofSentinel
    exact ⟨_, trapIn_of_inputExhausted s hs, State.readReg_writeReg_same .., rfl, rfl, hregs, fun _ _ => rfl, rfl, rfl,
      ⟨rfl, rfl, rfl, rfl⟩, rfl, rfl, rfl⟩
  · have hend : t.endReached = true := run_keeps step_keeps_endReached n s t hs h
    have hcfg : t.cfg = s.cfg := run_keeps (step_keeps_cfg s.cfg) n s t rfl h
    refine ⟨hend, hcfg, _, trapIn_of_endReached t hend, ?_⟩
    rw [State.readReg_writeReg_same, hcfg]

/-- Settles O35: the service is one `consoleOut` of the low byte of R0. -/
theorem trapOutAppendsTheLowByte : Obligations.TrapOutAppendsTheLowByte :=
  fun s => ⟨_, _, exec_trap_out s, lowByte_toNat _, rfl⟩

/-- Settles O37: a mask of 0 meets no CC value, and an unlisted vector selects no service. -/
theorem noEffectEncodingsOnlyAdvance : Obligations.NoEffectEncodingsOnlyAdvance := by
  refine fun s hrun hpc hword => step_eq_fetch_of_exec_noEffect s hrun hpc ?_
  rcases hword with hbr | ⟨hopc, hvect⟩
  · rw [decodeWord_eq_br_zero _ hbr]
    exact exec_br_not_taken _ 0 _ BitVec.and_zero
  · obtain ⟨hin, hout, hhalt⟩ : vect8Field (s.memRead s.pc) ≠ 0x20 ∧ vect8Field (s.memRead s.pc) ≠ 0x21 ∧
        vect8Field (s.memRead s.pc) ≠ 0x25 := by simpa [vect8Field] using hvect
    rw [decodeWord_eq_trap _ hopc]
    exact exec_trap_other _ _ hin hout hhalt

end Sys2Proof.Machine

/-! # Encoding round trips: proofs of O1, O2, O3, O4, O5 -/

namespace Sys2Proof

/-! ## A field at its place -/

/-- The bits of a field at its place (spec 30_encoding.md R62). -/
theorem place_getLsbD {n : Nat} (f : BitVec n) (lo : Nat) {k : Nat} (hk : k < 16) :
    (place f lo).getLsbD k = (decide (lo ≤ k) && f.getLsbD (k - lo)) := by
  rw [place, BitVec.getLsbD_shiftLeft, BitVec.getLsbD_setWidth]
  by_cases hlo : k < lo
  · simp [hlo]
  · simp [hk, hlo, Nat.le_of_not_lt hlo, Nat.lt_of_le_of_lt (Nat.sub_le k lo) hk]

/-- A field read from a word, from the word's number. -/
theorem extractLsb'_eq_of_toNat {n lo : Nat} {w : Word} {f : BitVec n} (h : w.toNat / 2 ^ lo % 2 ^ n = f.toNat) :
    w.extractLsb' lo n = f := by
  refine BitVec.eq_of_toNat_eq ?_
  rw [BitVec.extractLsb'_toNat, Nat.shiftRight_eq_div_pow, h]

/-- A field written back to its place is the word under the field's mask. -/
theorem place_extractLsb' (w : Word) (lo n : Nat) :
    place (w.extractLsb' lo n) lo = w &&& place (BitVec.allOnes n) lo := by
  refine BitVec.eq_of_getLsbD_eq fun k hk => ?_
  rw [BitVec.getLsbD_and, place_getLsbD _ _ hk, place_getLsbD _ _ hk, BitVec.getLsbD_extractLsb',
    BitVec.getLsbD_allOnes]
  by_cases hlo : lo ≤ k
  · simp [hlo, Nat.add_sub_cancel' hlo, Bool.and_comm]
  · simp [hlo]

/-- A field written to a place that is still 0 adds its value there (R76). -/
theorem toNat_or_place {n k : Nat} {w : Word} (hw : w.toNat = k) (f : BitVec n) (lo : Nat)
    (hfree : k / 2 ^ lo % 2 ^ n = 0 := by omega) (hfit : lo + n ≤ 16 := by decide) :
    (w ||| place f lo).toNat = k + f.toNat * 2 ^ lo := by
  have hzero : w.extractLsb' lo n = 0 := extractLsb'_eq_of_toNat (by rw [hw, hfree]; rfl)
  have hdisjoint : w &&& place f lo = 0 := by
    refine BitVec.eq_of_getLsbD_eq fun j hj => ?_
    rw [BitVec.getLsbD_and, place_getLsbD f lo hj]
    have hbit : (w.extractLsb' lo n).getLsbD (j - lo) = false := by rw [hzero]; simp
    rw [BitVec.getLsbD_extractLsb'] at hbit
    by_cases hlo : lo ≤ j
    · rw [Nat.add_sub_cancel' hlo] at hbit
      by_cases hn : j - lo < n
      · rw [decide_eq_true hn, Bool.true_and] at hbit
        rw [hbit, Bool.false_and]; simp
      · rw [BitVec.getLsbD_of_ge f (j - lo) (by omega)]; simp
    · simp [hlo]
  have hplace : (place f lo).toNat = f.toNat * 2 ^ lo := by
    have := f.isLt
    have hpow : 2 ^ lo * 2 ^ n ≤ 2 ^ 16 := by rw [← Nat.pow_add]; exact Nat.pow_le_pow_right (by decide) hfit
    rw [place, BitVec.toNat_shiftLeft, BitVec.toNat_setWidth_of_le (by omega), Nat.shiftLeft_eq, Nat.mod_eq_of_lt]
    calc f.toNat * 2 ^ lo < 2 ^ n * 2 ^ lo := Nat.mul_lt_mul_of_pos_right f.isLt (Nat.two_pow_pos _)
      _ ≤ 2 ^ 16 := by rw [Nat.mul_comm]; exact hpow
  rw [← BitVec.add_eq_or_of_and_eq_zero _ _ hdisjoint, BitVec.toNat_add_of_and_eq_zero hdisjoint, hw, hplace]

/-- The same for a field in the lowest bits. -/
theorem toNat_or_lowField {n k : Nat} {w : Word} (hw : w.toNat = k) (f : BitVec n)
    (hfree : k % 2 ^ n = 0 := by omega) (hfit : n ≤ 16 := by decide) :
    (w ||| place f 0).toNat = k + f.toNat := by
  rw [toNat_or_place hw f 0 (by rw [Nat.pow_zero, Nat.div_one, hfree]) (by omega), Nat.pow_zero, Nat.mul_one]

/-- Words 0xF000 to 0xFFFF, under the mask of their opcode, are TRAP. -/
theorem decodeWord_eq_trap_of_mask (w : Word) (h : w &&& 0xF000 = 0xF000) : decodeWord w = .trap (vect8Field w) := by
  simp only [decodeWord, opcodeBits_of_and_eq h]; rfl

/-! ## The canonical word as a number -/

/-- The sum of the opcode's base and the shifted fields (R76); for a reserved opcode value, which the spec's table
leaves out, the base alone. -/
def Instr.formula : Instr → Nat
  | .br x off9 => 0x0000 + x.toNat * 512 + off9.toNat
  | .addReg x y r => 0x1000 + x.toNat * 512 + y.toNat * 64 + r.toNat
  | .addImm x y imm5 => 0x1000 + x.toNat * 512 + y.toNat * 64 + 0x20 + imm5.toNat
  | .ld x off9 => 0x2000 + x.toNat * 512 + off9.toNat
  | .st x off9 => 0x3000 + x.toNat * 512 + off9.toNat
  | .jsr off9 => 0x4000 + off9.toNat
  | .andReg x y r => 0x5000 + x.toNat * 512 + y.toNat * 64 + r.toNat
  | .andImm x y imm5 => 0x5000 + x.toNat * 512 + y.toNat * 64 + 0x20 + imm5.toNat
  | .ldr x y off6 => 0x6000 + x.toNat * 512 + y.toNat * 64 + off6.toNat
  | .str x y off6 => 0x7000 + x.toNat * 512 + y.toNat * 64 + off6.toNat
  | .reserved8 => 0x8000
  | .not x y => 0x9000 + x.toNat * 512 + y.toNat * 64
  | .ldi x off9 => 0xA000 + x.toNat * 512 + off9.toNat
  | .sti x off9 => 0xB000 + x.toNat * 512 + off9.toNat
  | .jmp y => 0xC000 + y.toNat * 64
  | .reserved13 => 0xD000
  | .lea x off9 => 0xE000 + x.toNat * 512 + off9.toNat
  | .trap vect8 => 0xF000 + vect8.toNat

/-- The canonical word is the number that the formula gives: each field goes to a place that is still 0. -/
theorem encode_toNat (i : Instr) : (encode i).toNat = i.formula := by
  cases i with
  | br x f => exact toNat_or_lowField (toNat_or_place (k := 0x0000) rfl x 9) f
  | addReg x y f => exact toNat_or_lowField (toNat_or_place (toNat_or_place (k := 0x1000) rfl x 9) y 6) f
  | addImm x y f =>
    have hword := toNat_or_lowField (toNat_or_place (toNat_or_place (w := 0x1020) (k := 0x1020) rfl x 9) y 6) f
    simp only [encode, Instr.formula, hword]; omega
  | ld x f => exact toNat_or_lowField (toNat_or_place (k := 0x2000) rfl x 9) f
  | st x f => exact toNat_or_lowField (toNat_or_place (k := 0x3000) rfl x 9) f
  | jsr f => exact toNat_or_lowField (k := 0x4000) rfl f
  | andReg x y f => exact toNat_or_lowField (toNat_or_place (toNat_or_place (k := 0x5000) rfl x 9) y 6) f
  | andImm x y f =>
    have hword := toNat_or_lowField (toNat_or_place (toNat_or_place (w := 0x5020) (k := 0x5020) rfl x 9) y 6) f
    simp only [encode, Instr.formula, hword]; omega
  | ldr x y f => exact toNat_or_lowField (toNat_or_place (toNat_or_place (k := 0x6000) rfl x 9) y 6) f
  | str x y f => exact toNat_or_lowField (toNat_or_place (toNat_or_place (k := 0x7000) rfl x 9) y 6) f
  | not x y => exact toNat_or_place (toNat_or_place (k := 0x9000) rfl x 9) y 6
  | ldi x f => exact toNat_or_lowField (toNat_or_place (k := 0xA000) rfl x 9) f
  | sti x f => exact toNat_or_lowField (toNat_or_place (k := 0xB000) rfl x 9) f
  | jmp y => exact toNat_or_place (k := 0xC000) rfl y 6
  | lea x f => exact toNat_or_lowField (toNat_or_place (k := 0xE000) rfl x 9) f
  | trap f => exact toNat_or_lowField (k := 0xF000) rfl f
  | reserved8 | reserved13 => rfl

/-! ## The canonical spelling, layout by layout -/

/-- A field that is read from a word and written back joins the rest of the word under the mask. -/
theorem or_place_extractLsb' {w v m : Word} (h : w &&& m = v) (lo n : Nat) :
    w &&& (m ||| place (BitVec.allOnes n) lo) = v ||| place (w.extractLsb' lo n) lo := by
  rw [← h, place_extractLsb', BitVec.and_or_distrib_left]

/-- The mask of ADD and AND is that of the opcode and the mode bit (R63). -/
theorem and_opcodeModeMask (w : Word) : w &&& 0xF020 = (w &&& 0xF000) ||| place (w.extractLsb' 5 1) 5 :=
  or_place_extractLsb' (m := 0xF000) rfl 5 1

/-- The mode bit as a field of one bit. -/
theorem extractLsb'_modeBit (w : Word) : w.extractLsb' 5 1 = BitVec.ofBool (modeBit w) := by
  refine BitVec.eq_of_getLsbD_eq fun k hk => ?_
  rw [BitVec.getLsbD_extractLsb', Nat.lt_one_iff.1 hk]
  simp [modeBit]

section Spelling

variable {w base : Word}

/-- BR, LD, ST, LDI, STI and LEA use every bit. -/
theorem spelling_x_off9 (h : w &&& 0xF000 = base) :
    base ||| place (xField w) 9 ||| place (off9Field w) 0 = w &&& ~~~0x0000 :=
  (or_place_extractLsb' (or_place_extractLsb' h 9 3) 0 9).symm

/-- LDR and STR use every bit. -/
theorem spelling_x_y_off6 (h : w &&& 0xF000 = base) :
    base ||| place (xField w) 9 ||| place (yField w) 6 ||| place (off6Field w) 0 = w &&& ~~~0x0000 :=
  (or_place_extractLsb' (or_place_extractLsb' (or_place_extractLsb' h 9 3) 6 3) 0 6).symm

/-- The register forms of ADD and AND ignore bits 4 and 3. -/
theorem spelling_x_y_r (h : w &&& 0xF020 = base) :
    base ||| place (xField w) 9 ||| place (yField w) 6 ||| place (rField w) 0 = w &&& ~~~0x0018 :=
  (or_place_extractLsb' (or_place_extractLsb' (or_place_extractLsb' h 9 3) 6 3) 0 3).symm

/-- The immediate forms of ADD and AND use every bit. -/
theorem spelling_x_y_imm5 (h : w &&& 0xF020 = base) :
    base ||| place (xField w) 9 ||| place (yField w) 6 ||| place (imm5Field w) 0 = w &&& ~~~0x0000 :=
  (or_place_extractLsb' (or_place_extractLsb' (or_place_extractLsb' h 9 3) 6 3) 0 5).symm

/-- NOT ignores bits 5 to 0. -/
theorem spelling_x_y (h : w &&& 0xF000 = base) :
    base ||| place (xField w) 9 ||| place (yField w) 6 = w &&& ~~~0x003F :=
  (or_place_extractLsb' (or_place_extractLsb' h 9 3) 6 3).symm

/-- JMP ignores bits 11 to 9 and 5 to 0. -/
theorem spelling_y (h : w &&& 0xF000 = base) : base ||| place (yField w) 6 = w &&& ~~~0x0E3F :=
  (or_place_extractLsb' h 6 3).symm

/-- JSR ignores bits 11 to 9. -/
theorem spelling_off9 (h : w &&& 0xF000 = base) : base ||| place (off9Field w) 0 = w &&& ~~~0x0E00 :=
  (or_place_extractLsb' h 0 9).symm

/-- TRAP ignores bits 11 to 8. -/
theorem spelling_vect8 (h : w &&& 0xF000 = base) : base ||| place (vect8Field w) 0 = w &&& ~~~0x0F00 :=
  (or_place_extractLsb' h 0 8).symm

/-- The reserved words ignore every bit but the opcode. -/
theorem spelling_reserved (h : w &&& 0xF000 = base) : base = w &&& ~~~0x0FFF := h.symm

end Spelling

/-- Encoding a decoded word clears its ignored bits and no other (R65). -/
theorem encode_decodeWord (w : Word) : encode (decodeWord w) = w &&& ~~~(decodeWord w).ignoredBits := by
  have hopc := and_opcodeMask w
  have hmode := and_opcodeModeMask w
  rw [extractLsb'_modeBit, hopc] at hmode
  rw [opcField_eq_bits] at hopc hmode
  rw [decodeWord]
  revert hopc hmode
  cases w.getLsbD 15 <;> cases w.getLsbD 14 <;> cases w.getLsbD 13 <;> cases w.getLsbD 12 <;> intro hopc hmode
  case false.false.false.true | false.true.false.true =>
    cases hbit : modeBit w <;> rw [hbit] at hmode
    · exact spelling_x_y_r hmode
    · exact spelling_x_y_imm5 hmode
  case false.true.true.false | false.true.true.true => exact spelling_x_y_off6 hopc
  case false.true.false.false => exact spelling_off9 hopc
  case true.false.false.true => exact spelling_x_y hopc
  case true.true.false.false => exact spelling_y hopc
  case true.true.true.true => exact spelling_vect8 hopc
  case true.false.false.false | true.true.false.true => exact spelling_reserved hopc
  all_goals exact spelling_x_off9 hopc

/-! ## Decode of encode, layout by layout -/

/-- The opcode under its mask, from the word's number. -/
theorem opcodeMask_of_toNat {w : Word} {opc : BitVec 4} (h : w.toNat / 4096 = opc.toNat) :
    w &&& 0xF000 = opc ++ 0#12 := by
  rw [and_opcodeMask, BitVec.eq_of_toNat_eq ((opcField_toNat w).trans h)]

/-- The opcode and the mode bit under their mask, from the word's number. -/
theorem opcodeModeMask_of_toNat {w : Word} {opc : BitVec 4} {mode : BitVec 1} (h : w.toNat / 4096 = opc.toNat)
    (hmode : w.toNat / 2 ^ 5 % 2 ^ 1 = mode.toNat) : w &&& 0xF020 = opc ++ 0#12 ||| place mode 5 := by
  rw [and_opcodeModeMask, opcodeMask_of_toNat h, extractLsb'_eq_of_toNat hmode]

section Layout

variable {w : Word} {x y r : BitVec 3} {off9 : BitVec 9} {off6 : BitVec 6} {imm5 : BitVec 5} (opc : BitVec 4)

/-- The layout of BR, LD, ST, LDI, STI and LEA; with `x` 0, of JSR. -/
theorem layout_x_off9 (h : w.toNat = opc.toNat * 4096 + x.toNat * 512 + off9.toNat) :
    w &&& 0xF000 = opc ++ 0#12 ∧ xField w = x ∧ off9Field w = off9 :=
  ⟨opcodeMask_of_toNat (by omega), extractLsb'_eq_of_toNat (by omega), extractLsb'_eq_of_toNat (by omega)⟩

/-- The layout of LDR and STR; with the fields that are not theirs 0, of NOT and JMP. -/
theorem layout_x_y_off6 (h : w.toNat = opc.toNat * 4096 + x.toNat * 512 + y.toNat * 64 + off6.toNat) :
    w &&& 0xF000 = opc ++ 0#12 ∧ xField w = x ∧ yField w = y ∧ off6Field w = off6 :=
  ⟨opcodeMask_of_toNat (by omega), extractLsb'_eq_of_toNat (by omega), extractLsb'_eq_of_toNat (by omega),
    extractLsb'_eq_of_toNat (by omega)⟩

/-- The layout of the register forms of ADD and AND. -/
theorem layout_x_y_r (h : w.toNat = opc.toNat * 4096 + x.toNat * 512 + y.toNat * 64 + r.toNat) :
    w &&& 0xF020 = opc ++ 0#12 ||| place 0#1 5 ∧ xField w = x ∧ yField w = y ∧ rField w = r :=
  ⟨opcodeModeMask_of_toNat (by omega) (by rw [BitVec.toNat_zero]; omega), extractLsb'_eq_of_toNat (by omega),
    extractLsb'_eq_of_toNat (by omega), extractLsb'_eq_of_toNat (by omega)⟩

/-- The layout of the immediate forms of ADD and AND. -/
theorem layout_x_y_imm5 (h : w.toNat = opc.toNat * 4096 + x.toNat * 512 + y.toNat * 64 + 0x20 + imm5.toNat) :
    w &&& 0xF020 = opc ++ 0#12 ||| place 1#1 5 ∧ xField w = x ∧ yField w = y ∧ imm5Field w = imm5 :=
  ⟨opcodeModeMask_of_toNat (by omega) (by rw [BitVec.toNat_one (by decide)]; omega), extractLsb'_eq_of_toNat (by omega),
    extractLsb'_eq_of_toNat (by omega), extractLsb'_eq_of_toNat (by omega)⟩

end Layout

/-- Decoding a canonical word gives the instruction back: the formula determines the opcode and every field (R76). -/
theorem decodeWord_encode (i : Instr) : decodeWord (encode i) = i := by
  have hword := encode_toNat i
  generalize encode i = w at hword
  cases i with
  | br x off9 => obtain ⟨hmask, rfl, rfl⟩ := layout_x_off9 0 hword; exact decodeWord_eq_br w hmask
  | addReg x y r => obtain ⟨hmask, rfl, rfl, rfl⟩ := layout_x_y_r 1 hword; exact decodeWord_eq_addReg w hmask
  | addImm x y imm5 => obtain ⟨hmask, rfl, rfl, rfl⟩ := layout_x_y_imm5 1 hword; exact decodeWord_eq_addImm w hmask
  | ld x off9 => obtain ⟨hmask, rfl, rfl⟩ := layout_x_off9 2 hword; exact decodeWord_eq_ld w hmask
  | st x off9 => obtain ⟨hmask, rfl, rfl⟩ := layout_x_off9 3 hword; exact decodeWord_eq_st w hmask
  | jsr off9 => obtain ⟨hmask, -, rfl⟩ := layout_x_off9 (x := 0) 4 hword; exact decodeWord_eq_jsr w hmask
  | andReg x y r => obtain ⟨hmask, rfl, rfl, rfl⟩ := layout_x_y_r 5 hword; exact decodeWord_eq_andReg w hmask
  | andImm x y imm5 => obtain ⟨hmask, rfl, rfl, rfl⟩ := layout_x_y_imm5 5 hword; exact decodeWord_eq_andImm w hmask
  | ldr x y off6 => obtain ⟨hmask, rfl, rfl, rfl⟩ := layout_x_y_off6 6 hword; exact decodeWord_eq_ldr w hmask
  | str x y off6 => obtain ⟨hmask, rfl, rfl, rfl⟩ := layout_x_y_off6 7 hword; exact decodeWord_eq_str w hmask
  | not x y => obtain ⟨hmask, rfl, rfl, -⟩ := layout_x_y_off6 (off6 := 0) 9 hword; exact decodeWord_eq_not w hmask
  | ldi x off9 => obtain ⟨hmask, rfl, rfl⟩ := layout_x_off9 10 hword; exact decodeWord_eq_ldi w hmask
  | sti x off9 => obtain ⟨hmask, rfl, rfl⟩ := layout_x_off9 11 hword; exact decodeWord_eq_sti w hmask
  | jmp y => obtain ⟨hmask, -, rfl, -⟩ := layout_x_y_off6 (x := 0) (off6 := 0) 12 hword; exact decodeWord_eq_jmp w hmask
  | lea x off9 => obtain ⟨hmask, rfl, rfl⟩ := layout_x_off9 14 hword; exact decodeWord_eq_lea w hmask
  | trap vect8 =>
    obtain rfl : vect8Field w = vect8 := extractLsb'_eq_of_toNat (by simp only [Instr.formula] at hword; omega)
    exact decodeWord_eq_trap w (extractLsb'_eq_of_toNat (by simp only [Instr.formula] at hword; simp; omega))
  | reserved8 => exact (decodeWord_eq_reserved8_iff w).1 (by simp only [Instr.formula] at hword; omega)
  | reserved13 => exact (decodeWord_eq_reserved13_iff w).1 (by simp only [Instr.formula] at hword; omega)

end Sys2Proof

namespace Sys2Proof.Machine

/-! ## Words that differ in ignored bits -/

/-- Words that differ only outside a mask are the same word under it. -/
theorem and_eq_and_of_xor_and_eq_zero {w v c : Word} (h : (w ^^^ v) &&& c = 0) : w &&& c = v &&& c := by
  have hdistrib : (w ^^^ v) &&& c = (w &&& c) ^^^ (v &&& c) :=
    BitVec.eq_of_getLsbD_eq fun k _ => by simp [Bool.and_xor_distrib_right]
  exact BitVec.xor_eq_zero_iff.1 (hdistrib ▸ h)

/-- A word decodes as its canonical spelling does (R65). -/
theorem decodeWord_canonical (w : Word) : decodeWord (w &&& ~~~(decodeWord w).ignoredBits) = decodeWord w := by
  rw [← encode_decodeWord, decodeWord_encode]

/-- Words of one form, which `value` under the mask `form` selects, that differ only in the form's ignored bits have the
same canonical spelling, so they decode and execute identically. -/
theorem differ_in_ignoredBits {form value ignored w v : Word} (hform : ~~~ignored &&& form = form)
    (hbits : ∀ u : Word, u &&& form = value → (decodeWord u).ignoredBits = ignored ∧ (decodeWord u).wellFormed = true)
    (hw : w &&& form = value) (hdiff : (w ^^^ v) &&& ~~~ignored = 0) :
    decodeWord v = decodeWord w ∧
      ∀ s, ∃ t, exec (decodeWord w) s = .next t ∧ exec (decodeWord v) s = .next t := by
  have hsame : w &&& ~~~ignored = v &&& ~~~ignored := and_eq_and_of_xor_and_eq_zero hdiff
  have hv : v &&& form = value := by
    rw [← hw, ← hform, ← BitVec.and_assoc, ← BitVec.and_assoc, hsame]
  obtain ⟨hwbits, hwf⟩ := hbits w hw
  obtain ⟨hvbits, -⟩ := hbits v hv
  have hdecode : decodeWord v = decodeWord w := by
    rw [← decodeWord_canonical v, ← decodeWord_canonical w, hwbits, hvbits, hsame]
  refine ⟨hdecode, fun s => ?_⟩
  obtain ⟨t, ht⟩ := exec_next_of_wellFormed s _ hwf
  exact ⟨t, ht, hdecode ▸ ht⟩

/-! ## The obligations -/

/-- Settles O1: twelve closed words, each decoded by evaluation. -/
theorem writtenOutWordsDecode : Obligations.WrittenOutWordsDecode := by
  refine ⟨?_, ?_, ?_, ?_, ?_, ?_, ?_, ?_, ?_, ?_, ?_, ?_⟩ <;> decide

/-- Settles O2: the canonical word as a number determines the opcode and the fields; its two bytes are read back. -/
theorem decodeOfEncodeIsIdentity : Obligations.DecodeOfEncodeIsIdentity := by
  refine ⟨decodeWord_encode, fun i rest => ?_⟩
  rw [encodeBytes, List.cons_append, List.cons_append, List.nil_append, decodeBytes, wordOfBytes_halves,
    decodeWord_encode]

/-- Settles O3: each field read and written back is the word under the field's mask. -/
theorem encodeOfDecodeIsCanonicalSpelling : Obligations.EncodeOfDecodeIsCanonicalSpelling := encode_decodeWord

/-- Settles O4: the two words have one canonical spelling, which decodes as each of them does. -/
theorem ignoredBitsHaveNoInfluence : Obligations.IgnoredBitsHaveNoInfluence := by
  rintro w v (⟨hadd | hand, hdiff⟩ | ⟨hnot, hdiff⟩ | ⟨hjmp, hdiff⟩ | ⟨hjsr, hdiff⟩ | ⟨htrap, hdiff⟩)
  · exact differ_in_ignoredBits rfl (fun u hu => by rw [decodeWord_eq_addReg u hu]; exact ⟨rfl, rfl⟩) hadd hdiff
  · exact differ_in_ignoredBits rfl (fun u hu => by rw [decodeWord_eq_andReg u hu]; exact ⟨rfl, rfl⟩) hand hdiff
  · exact differ_in_ignoredBits rfl (fun u hu => by rw [decodeWord_eq_not u hu]; exact ⟨rfl, rfl⟩) hnot hdiff
  · exact differ_in_ignoredBits rfl (fun u hu => by rw [decodeWord_eq_jmp u hu]; exact ⟨rfl, rfl⟩) hjmp hdiff
  · exact differ_in_ignoredBits rfl (fun u hu => by rw [decodeWord_eq_jsr u hu]; exact ⟨rfl, rfl⟩) hjsr hdiff
  · exact differ_in_ignoredBits rfl (fun u hu => by rw [decodeWord_eq_trap_of_mask u hu]; exact ⟨rfl, rfl⟩) htrap hdiff

/-- Settles O5: the canonical word is the formula's number, form by form. -/
theorem encodeFollowsTheFormulas : Obligations.EncodeFollowsTheFormulas :=
  ⟨fun _ _ => encode_toNat _, fun _ _ _ => encode_toNat _, fun _ _ _ => encode_toNat _, fun _ _ => encode_toNat _,
    fun _ _ => encode_toNat _, fun _ => encode_toNat _, fun _ _ _ => encode_toNat _, fun _ _ _ => encode_toNat _,
    fun _ _ _ => encode_toNat _, fun _ _ _ => encode_toNat _, fun _ _ => encode_toNat _, fun _ _ => encode_toNat _,
    fun _ _ => encode_toNat _, fun _ => encode_toNat _, fun _ _ => encode_toNat _, fun _ => encode_toNat _⟩

end Sys2Proof.Machine

/-! # The forms of an instruction: proofs of O12, O43, O44 -/

namespace Sys2Proof.Machine

/-! ## Reading beside a write -/

/-- A write to a register outside a list leaves the registers of the list alone. -/
theorem State.readReg_writeReg_of_not_mem {xs : List RegNum} {s : State} {k y : RegNum} {v : Word} (hk : k ∉ xs)
    (hy : y ∈ xs) : (s.writeReg k v).readReg y = s.readReg y := by
  rw [State.readReg_writeReg, if_neg (ne_of_mem_of_not_mem hy hk)]

/-- A store to a cell outside a list leaves the cells of the list alone. -/
theorem State.memRead_memWrite_of_not_mem {cells : List Word} {s : State} {a c v : Word} (ha : a ∉ cells)
    (hc : c ∈ cells) : (s.memWrite a v).memRead c = s.memRead c :=
  s.memRead_memWrite_other a c v (ne_of_mem_of_not_mem hc ha)

/-- Stores to two different cells of a canonical memory commute. -/
theorem State.memWrite_comm (s : State) (hwf : s.mem.wf) (a b v w : Word) (hab : a ≠ b) :
    (s.memWrite a v).memWrite b w = (s.memWrite b w).memWrite a v := by
  have hmem := s.mem.write_comm hwf a.toNat b.toNat v w a.isLt b.isLt fun e => hab (BitVec.eq_of_toNat_eq e)
  exact congrArg (fun m => { s with mem := m }) hmem

/-- The second of two stores to one cell of a canonical memory is the one that counts. -/
theorem State.memWrite_memWrite (s : State) (hwf : s.mem.wf) (a v w : Word) :
    (s.memWrite a v).memWrite a w = s.memWrite a w := by
  have hmem := s.mem.write_write hwf a.toNat v w a.isLt
  exact congrArg (fun m => { s with mem := m }) hmem

/-! ## What `exec` does, by the form of the instruction -/

/-- The forms of an instruction. Each says what `exec` answers from every state and what the spec's tables say of the
form (10_state.md R22, R28; 20_memory.md R46): the registers and the cell written, the final PC, and that the value
written depends on the registers and the cells of the instruction's table entries only. -/
inductive ExecForm (i : Instr) : Prop
  /-- A flag-setting instruction writes a value to its destination. -/
  | result (x : RegNum) (value : State → Word) (hexec : ∀ s, exec i s = .next (s.writeResult x (value s)))
      (hwritten : regsWritten i = [x]) (hstore : ∀ s, store i s = none) (hpc : ∀ s, finalPc i s = s.pc)
      (hregs : ∀ s k v, k ∉ regsRead i → value (s.writeReg k v) = value s)
      (hcells : ∀ s a v, a ∉ cellsRead i s → value (s.memWrite a v) = value s)
  /-- A storing instruction writes a register to a cell. -/
  | store (x : RegNum) (addr : State → Word) (hexec : ∀ s, exec i s = .next (s.memWrite (addr s) (s.readReg x)))
      (hwritten : regsWritten i = []) (hstore : ∀ s, store i s = some (addr s, x)) (hpc : ∀ s, finalPc i s = s.pc)
      (hsource : x ∈ regsRead i) (hregs : ∀ s k v, k ∉ regsRead i → addr (s.writeReg k v) = addr s)
      (hcells : ∀ s a v, a ∉ cellsRead i s → addr (s.memWrite a v) = addr s)
  /-- BR, JMP and a TRAP outside the three services decide the PC and nothing else. -/
  | transfer (hexec : ∀ s, exec i s = .next (s.jump (finalPc i s))) (hwritten : regsWritten i = [])
      (hstore : ∀ s, store i s = none)
      (hregs : ∀ s k v, k ∉ regsRead i → finalPc i (s.writeReg k v) = finalPc i s)
      (hcells : ∀ s a v, finalPc i (s.memWrite a v) = finalPc i s)
  /-- JSR writes R7 and decides the PC. -/
  | link (off9 : BitVec 9) (hi : i = .jsr off9)
  /-- The three services of TRAP. -/
  | input (hi : i = .trap 0x20)
  | output (hi : i = .trap 0x21)
  | halt (hi : i = .trap 0x25)
  /-- The two reserved opcode values. -/
  | reserved (r : Refusal) (hexec : ∀ s, exec i s = .refused r)

/-- Every instruction has one of the forms. -/
theorem execForm (i : Instr) : ExecForm i := by
  cases i with
  | br x off9 =>
    refine .transfer (fun s => ?_) rfl (fun _ => rfl) (fun _ _ _ _ => rfl) fun _ _ _ => rfl
    by_cases hc : s.cc &&& x = 0
    · rw [exec_br_not_taken s x off9 hc, finalPc, if_pos hc]; rfl
    · rw [exec_br_taken s x off9 hc, finalPc, if_neg hc]; rfl
  | addReg x y r | andReg x y r =>
    refine .result x _ (fun _ => rfl) rfl (fun _ => rfl) (fun _ => rfl) (fun s k v hk => ?_) fun _ _ _ _ => rfl
    rw [State.readReg_writeReg_of_not_mem hk List.mem_cons_self,
      State.readReg_writeReg_of_not_mem hk (List.mem_cons_of_mem _ List.mem_cons_self)]
  | addImm x y imm5 | andImm x y imm5 | not x y =>
    refine .result x _ (fun _ => rfl) rfl (fun _ => rfl) (fun _ => rfl) (fun s k v hk => ?_) fun _ _ _ _ => rfl
    rw [State.readReg_writeReg_of_not_mem hk List.mem_cons_self]
  | ld x off9 =>
    exact .result x _ (fun _ => rfl) rfl (fun _ => rfl) (fun _ => rfl) (fun _ _ _ _ => rfl) fun s a v ha =>
      State.memRead_memWrite_of_not_mem ha List.mem_cons_self
  | ldr x y off6 =>
    refine .result x _ (fun _ => rfl) rfl (fun _ => rfl) (fun _ => rfl) (fun s k v hk => ?_) fun s a v ha =>
      State.memRead_memWrite_of_not_mem ha List.mem_cons_self
    rw [State.baseAddr, State.readReg_writeReg_of_not_mem hk List.mem_cons_self]; rfl
  | ldi x off9 =>
    refine .result x _ (fun _ => rfl) rfl (fun _ => rfl) (fun _ => rfl) (fun _ _ _ _ => rfl) fun s a v ha => ?_
    have hptr : (s.memWrite a v).indirectAddr off9 = s.indirectAddr off9 :=
      State.memRead_memWrite_of_not_mem ha List.mem_cons_self
    rw [hptr]
    exact State.memRead_memWrite_of_not_mem ha (List.mem_cons_of_mem _ List.mem_cons_self)
  | lea x off9 =>
    exact .result x _ (fun _ => rfl) rfl (fun _ => rfl) (fun _ => rfl) (fun _ _ _ _ => rfl) fun _ _ _ _ => rfl
  | st x off9 =>
    exact .store x _ (fun _ => rfl) rfl (fun _ => rfl) (fun _ => rfl) List.mem_cons_self (fun _ _ _ _ => rfl)
      fun _ _ _ _ => rfl
  | str x y off6 =>
    refine .store x (fun s => s.baseAddr y off6) (fun _ => rfl) rfl (fun _ => rfl) (fun _ => rfl) List.mem_cons_self
      (fun s k v hk => ?_) fun _ _ _ _ => rfl
    rw [State.baseAddr, State.readReg_writeReg_of_not_mem hk (List.mem_cons_of_mem _ List.mem_cons_self)]; rfl
  | sti x off9 =>
    exact .store x _ (fun _ => rfl) rfl (fun _ => rfl) (fun _ => rfl) List.mem_cons_self (fun _ _ _ _ => rfl)
      fun s a v ha => State.memRead_memWrite_of_not_mem ha List.mem_cons_self
  | jmp y =>
    exact .transfer (fun _ => rfl) rfl (fun _ => rfl)
      (fun s k v hk => State.readReg_writeReg_of_not_mem hk List.mem_cons_self) fun _ _ _ => rfl
  | jsr off9 => exact .link off9 rfl
  | trap v =>
    rcases trap_vector_cases v with rfl | rfl | rfl | ⟨h0, h1, h2⟩
    · exact .input rfl
    · exact .output rfl
    · exact .halt rfl
    · exact .transfer (fun s => exec_trap_other s v h0 h1 h2) (if_neg h0) (fun _ => rfl)
        (fun _ _ _ _ => rfl) fun _ _ _ => rfl
  | reserved8 | reserved13 => exact .reserved _ fun _ => rfl

/-! ## The input service -/

/-- The input service changes R0, the input position and the run state only (43_trap.md R131, R132). -/
theorem trapIn_frame (s t : State) (h : trapIn s = .next t) :
    SameRegsExcept [0] s t ∧ t.mem = s.mem ∧ t.pc = s.pc ∧ t.halted = s.halted := by
  have hwrite (u : State) (v : Word) : SameRegsExcept [0] u (u.writeReg 0 v) :=
    ((OnlyPcAndRegsChanged.refl u).writeReg 0 v).1
  rcases trapIn_cases s with ⟨b, -, -, hin⟩ | ⟨-, hin⟩ | ⟨-, -, -, hin⟩ | ⟨-, -, -, hin⟩ <;> cases hin.symm.trans h
  · exact ⟨hwrite s.consumeByte _, rfl, rfl, rfl⟩
  · exact ⟨hwrite s _, rfl, rfl, rfl⟩
  · exact ⟨hwrite s.reachEnd _, rfl, rfl, rfl⟩
  · exact ⟨fun _ _ => rfl, rfl, rfl, rfl⟩

/-- A change of the state that keeps the console and the parameters, and that commutes with what the input service
writes, has no influence on the service. -/
theorem trapIn_mapNext (f : State → State) (s : State) (hconsole : SameConsole s (f s)) (hcfg : (f s).cfg = s.cfg)
    (hwrite : ∀ t v, (f t).writeReg 0 v = f (t.writeReg 0 v)) (hconsume : (f s).consumeByte = f s.consumeByte)
    (hend : (f s).reachEnd = f s.reachEnd) (hwait : (f s).setWaiting true = f (s.setWaiting true)) :
    trapIn (f s) = mapNext f (trapIn s) := by
  obtain ⟨hinput, hclosed, hconsumed, hreached, -⟩ := hconsole
  rcases trapIn_cases s with ⟨b, h1, h2, h⟩ | ⟨h1, h⟩ | ⟨h1, h2, h3, h⟩ | ⟨h1, h2, h3, h⟩ <;> rw [h, mapNext]
  · rw [trapIn_of_byteReady (f s) b ⟨hreached.trans h1, by rw [hinput, hconsumed, h2]⟩, hconsume, hwrite]
  · rw [trapIn_of_endReached (f s) (hreached.trans h1), hcfg, hwrite]
  · rw [trapIn_of_lastByteConsumed (f s) (hreached.trans h1) (by rw [hinput, hconsumed, h2]) (hclosed.trans h3), hend,
      hcfg, hwrite]
  · rw [trapIn_of_inputPending (f s) ⟨hreached.trans h1, by rw [hinput, hconsumed, h2], hclosed.trans h3⟩, hwait]

/-- Memory has no influence on the input service (R131). -/
theorem trapIn_ignores_mem (s : State) (f : Memory → Memory) :
    trapIn { s with mem := f s.mem } = mapNext (fun t => { t with mem := f t.mem }) (trapIn s) :=
  trapIn_mapNext (fun t => { t with mem := f t.mem }) s ⟨rfl, rfl, rfl, rfl, rfl⟩ rfl (fun _ _ => rfl) rfl rfl rfl

/-- No register but R0 has an influence on the input service (R131). -/
theorem trapIn_writeReg (s : State) (k : RegNum) (v : Word) (hk : k ≠ 0) :
    trapIn (s.writeReg k v) = mapNext (fun t => t.writeReg k v) (trapIn s) :=
  trapIn_mapNext (fun t => t.writeReg k v) s ⟨rfl, rfl, rfl, rfl, rfl⟩ rfl (fun t u => t.writeReg_comm k 0 v u hk) rfl rfl
    rfl

/-! ## The output service -/

/-- The byte that `TRAP 0x21` writes is the low byte alone (43_trap.md R134). -/
theorem lowByte_wordOfBytes (hi lo : Byte) : lowByte (wordOfBytes hi lo) = lo := by
  refine BitVec.eq_of_toNat_eq ?_
  rw [lowByte_toNat, wordOfBytes_toNat]; omega

/-- The output service depends on the low byte of R0 only. -/
theorem exec_trap_out_of_lowByte {s : State} {b : Byte} (h : lowByte (s.readReg 0) = b) :
    exec (.trap 0x21) s = .next (s.consoleOut b) := by
  subst h; rfl

/-! ## What an instruction leaves unchanged -/

/-- The final PC is the table's, but for the halting TRAP (10_state.md R28). -/
theorem exec_finalPc (i : Instr) (s t : State) (hi : i ≠ .trap 0x25) (h : exec i s = .next t) : t.pc = finalPc i s := by
  cases execForm i with
  | result x value hexec _ _ hpc _ _ => cases (hexec s).symm.trans h; exact (hpc s).symm
  | store x addr hexec _ _ hpc _ _ _ => cases (hexec s).symm.trans h; exact (hpc s).symm
  | transfer hexec _ _ _ _ => cases (hexec s).symm.trans h; rfl
  | link off9 hi => subst hi; cases h; rfl
  | input hi =>
    subst hi
    obtain ⟨-, -, hpc, -⟩ := trapIn_frame s t h
    exact hpc
  | output hi => subst hi; cases h; rfl
  | halt hhalt => exact absurd hhalt hi
  | reserved r hexec => exact absurd ((hexec s).symm.trans h) nofun

/-- No register outside the table's written ones changes (R22). -/
theorem exec_keeps_regs (i : Instr) (s t : State) (h : exec i s = .next t) : SameRegsExcept (regsWritten i) s t := by
  cases execForm i with
  | result x value hexec hwritten _ _ _ _ =>
    cases (hexec s).symm.trans h
    obtain ⟨hregs, -⟩ := OnlyResultChanged.writeResult s x (value s)
    rw [hwritten]; exact hregs
  | store x addr hexec _ _ _ _ _ _ => cases (hexec s).symm.trans h; exact fun _ _ => rfl
  | transfer hexec _ _ _ _ => cases (hexec s).symm.trans h; exact fun _ _ => rfl
  | link off9 hi =>
    subst hi; cases h
    obtain ⟨hregs, -⟩ := (OnlyPcAndRegsChanged.refl s).writeReg 7 s.pc
    exact hregs
  | input hi =>
    subst hi
    obtain ⟨hregs, -⟩ := trapIn_frame s t h
    exact hregs
  | output hi => subst hi; cases h; exact fun _ _ => rfl
  | halt hi => subst hi; cases h; exact fun _ _ => rfl
  | reserved r hexec => exact absurd ((hexec s).symm.trans h) nofun

/-- A storing instruction writes its register to its cell and does nothing else (20_memory.md R46). -/
theorem exec_of_store (i : Instr) (s : State) (a : Word) (x : RegNum) (hstore : store i s = some (a, x)) :
    exec i s = .next (s.memWrite a (s.readReg x)) := by
  cases i <;> cases hstore <;> rfl

/-- An instruction that stores nothing leaves the whole memory alone (R46). -/
theorem exec_keeps_mem (i : Instr) (s t : State) (hstore : store i s = none) (h : exec i s = .next t) :
    t.mem = s.mem := by
  cases execForm i with
  | result x value hexec _ _ _ _ _ => cases (hexec s).symm.trans h; rfl
  | store x addr _ _ hsome _ _ _ _ => exact absurd (hstore.symm.trans (hsome s)) nofun
  | transfer hexec _ _ _ _ => cases (hexec s).symm.trans h; rfl
  | link off9 hi => subst hi; cases h; rfl
  | input hi =>
    subst hi
    obtain ⟨-, hmem, -, -⟩ := trapIn_frame s t h
    exact hmem
  | output hi => subst hi; cases h; rfl
  | halt hi => subst hi; cases h; rfl
  | reserved r hexec => exact absurd ((hexec s).symm.trans h) nofun

/-- No cell outside the table's written one changes (R46). -/
theorem exec_keeps_cells (i : Instr) (s t : State) (h : exec i s = .next t) :
    SameMemoryExcept (cellsWritten i s) s t := by
  cases hstore : store i s with
  | none => exact fun a _ => congrArg (fun m => Memory.read m a.toNat) (exec_keeps_mem i s t hstore h)
  | some cell =>
    obtain ⟨a, x⟩ := cell
    cases (exec_of_store i s a x hstore).symm.trans h
    rw [cellsWritten, hstore]
    obtain ⟨-, hcells, -⟩ := OnlyCellsChanged.memWrite s a (s.readReg x)
    exact hcells

/-! ## What an instruction does not depend on -/

/-- A register that an instruction neither reads nor writes has no influence (R22). -/
theorem exec_writeReg_unaccessed (i : Instr) (s : State) (k : RegNum) (v : Word) (hread : k ∉ regsRead i)
    (hwrite : k ∉ regsWritten i) : exec i (s.writeReg k v) = mapNext (fun t => t.writeReg k v) (exec i s) := by
  cases execForm i with
  | result x value hexec hwritten _ _ hregs _ =>
    have hkx : k ≠ x := by simpa [hwritten] using hwrite
    rw [hexec, hexec, hregs s k v hread, mapNext, State.writeResult, State.writeReg_comm s k x v _ hkx]; rfl
  | store x addr hexec _ _ _ hsource hregs _ =>
    rw [hexec, hexec, hregs s k v hread, State.readReg_writeReg_of_not_mem hread hsource]; rfl
  | transfer hexec _ _ hregs _ => rw [hexec, hexec, hregs s k v hread]; rfl
  | link off9 hi =>
    subst hi
    have hk : k ≠ 7 := by simpa [regsWritten] using hwrite
    rw [exec_jsr, exec_jsr, mapNext, State.writeReg_pc, State.writeReg_comm s k 7 v _ hk]; rfl
  | input hi => subst hi; exact trapIn_writeReg s k v (by simpa [regsWritten] using hwrite)
  | output hi =>
    subst hi
    exact exec_trap_out_of_lowByte (congrArg lowByte (State.readReg_writeReg_of_not_mem hread List.mem_cons_self))
  | halt hi => subst hi; rfl
  | reserved r hexec => rw [hexec, hexec]; rfl

/-- The old value of a register that an instruction writes and does not read is lost when it completes (R22). -/
theorem exec_writeReg_overwritten (i : Instr) (s t : State) (k : RegNum) (v : Word) (hread : k ∉ regsRead i)
    (hwrite : k ∈ regsWritten i) (h : exec i s = .next t) (hwait : t.waiting = false) :
    exec i (s.writeReg k v) = .next t := by
  cases execForm i with
  | result x value hexec hwritten _ _ hregs _ =>
    obtain rfl : k = x := by simpa [hwritten] using hwrite
    rw [← h, hexec, hexec, hregs s k v hread, State.writeResult, State.writeReg_writeReg]; rfl
  | store x addr _ hwritten _ _ _ _ _ => rw [hwritten] at hwrite; cases hwrite
  | transfer _ hwritten _ _ _ => rw [hwritten] at hwrite; cases hwrite
  | link off9 hi =>
    subst hi
    obtain rfl : k = 7 := by simpa [regsWritten] using hwrite
    rw [← h, exec_jsr, exec_jsr, State.writeReg_writeReg]; rfl
  | input hi =>
    subst hi
    obtain rfl : k = 0 := by simpa [regsWritten] using hwrite
    change trapIn s = _ at h
    change trapIn _ = _
    rcases trapIn_cases s with ⟨b, h1, h2, hin⟩ | ⟨h1, hin⟩ | ⟨h1, h2, h3, hin⟩ | ⟨h1, h2, h3, hin⟩ <;>
      cases hin.symm.trans h
    · exact (trapIn_of_byteReady (s.writeReg 0 v) b ⟨h1, h2⟩).trans
        (congrArg _ (s.consumeByte.writeReg_writeReg 0 v _))
    · exact (trapIn_of_endReached (s.writeReg 0 v) h1).trans (congrArg _ (s.writeReg_writeReg 0 v _))
    · exact (trapIn_of_lastByteConsumed (s.writeReg 0 v) h1 h2 h3).trans
        (congrArg _ (s.reachEnd.writeReg_writeReg 0 v _))
    · cases hwait
  | output hi | halt hi => subst hi; cases hwrite
  | reserved r hexec => exact absurd ((hexec s).symm.trans h) nofun

/-- A cell that an instruction neither reads nor writes has no influence (20_memory.md R46). -/
theorem exec_memWrite_unaccessed (i : Instr) (s : State) (hwf : s.mem.wf) (a v : Word) (hread : a ∉ cellsRead i s)
    (hwrite : a ∉ cellsWritten i s) : exec i (s.memWrite a v) = mapNext (fun t => t.memWrite a v) (exec i s) := by
  cases execForm i with
  | result x value hexec _ _ _ _ hcells => rw [hexec, hexec, hcells s a v hread]; rfl
  | store x addr hexec _ hstore _ _ _ hcells =>
    have hne : a ≠ addr s := by simpa [cellsWritten, hstore] using hwrite
    rw [hexec, hexec, hcells s a v hread, State.memWrite_readReg, mapNext, s.memWrite_comm hwf a _ v _ hne]
  | transfer hexec _ _ _ hcells => rw [hexec, hexec, hcells s a v]; rfl
  | link off9 hi => subst hi; rfl
  | input hi => subst hi; exact trapIn_ignores_mem s (·.write a.toNat v)
  | output hi | halt hi => subst hi; rfl
  | reserved r hexec => rw [hexec, hexec]; rfl

/-- The old value of a cell that an instruction writes and does not read is lost (R46). -/
theorem exec_memWrite_overwritten (i : Instr) (s : State) (hwf : s.mem.wf) (a v : Word) (hread : a ∉ cellsRead i s)
    (hwrite : a ∈ cellsWritten i s) : exec i (s.memWrite a v) = exec i s := by
  cases execForm i with
  | store x addr hexec _ hstore _ _ _ hcells =>
    obtain rfl : a = addr s := by simpa [cellsWritten, hstore] using hwrite
    rw [hexec, hexec, hcells s _ v hread, State.memWrite_readReg, s.memWrite_memWrite hwf]
  | result _ _ _ _ hstore _ _ _ | transfer _ _ hstore _ _ => simp [cellsWritten, hstore] at hwrite
  | link off9 hi | input hi | output hi | halt hi => subst hi; cases hwrite
  | reserved r hexec => rw [hexec, hexec]

/-! ## The obligations -/

/-- Settles O12: the final PC, form by form. -/
theorem finalPcFollowsTheTable : Obligations.FinalPcFollowsTheTable := exec_finalPc

/-- Settles O43: frame, independence and lost old value, form by form; TRAP 0x21 takes the low byte of R0. -/
theorem registerAccessTableIsComplete : Obligations.RegisterAccessTableIsComplete := by
  refine ⟨fun s high => ?_, fun i s => ⟨exec_keeps_regs i s, exec_writeReg_unaccessed i s,
    fun k v t hread hwrite h _ hwait => exec_writeReg_overwritten i s t k v hread hwrite h hwait⟩⟩
  exact exec_trap_out_of_lowByte (by rw [State.readReg_writeReg_same, lowByte_wordOfBytes])

/-- Settles O44: frame, independence and lost old value, form by form; writes to a canonical memory commute or
overwrite. -/
theorem memoryAccessTableIsComplete : Obligations.MemoryAccessTableIsComplete :=
  fun i s hwf => ⟨exec_keeps_cells i s, exec_memWrite_unaccessed i s hwf, exec_memWrite_overwritten i s hwf⟩

end Sys2Proof.Machine

/-! # The services and the run states: proofs of O10, O30, O31, O32, O34, O36, O38, O39, O40 -/

namespace Sys2Proof.Machine

/-- A zero-extended input byte has the byte's value (43_trap.md R132). -/
theorem zext8_toNat (b : Byte) : (zext8 b).toNat = b.toNat := BitVec.toNat_setWidth_of_le (by decide)

/-- Of the registers, TRAP reads R0 at most (10_state.md R22). -/
theorem regsRead_trap_subset (v : BitVec 8) : regsRead (.trap v) ⊆ [0] := by
  rw [regsRead]; split
  · exact List.Subset.refl _
  · exact List.nil_subset _

/-- Of the registers, TRAP writes R0 at most (R22). -/
theorem regsWritten_trap_subset (v : BitVec 8) : regsWritten (.trap v) ⊆ [0] := by
  rw [regsWritten]; split
  · exact List.Subset.refl _
  · exact List.nil_subset _

/-! ## The PC check -/

/-- The check lets a state through under the ordinary policy, and at any PC but 0 (70_reset_and_hazards.md R183). -/
theorem pcZeroCheck_passes (s : State) (h : s.cfg.pcZeroPolicy = .ordinary ∨ s.pc ≠ 0) : pcZeroCheck s = .next s := by
  refine if_neg fun ⟨hrefuse, hzero, _, _⟩ => ?_
  rcases h with hord | hne
  · exact absurd (hrefuse.symm.trans hord) nofun
  · exact hne hzero

/-- Under the other policy the check refuses a running engine at PC 0. -/
theorem pcZeroCheck_refuses (s : State) (hrefuse : s.cfg.pcZeroPolicy = .refuse) (hzero : s.pc = 0) (hrun : Running s) :
    pcZeroCheck s = .refused .pcZero := by
  obtain ⟨hhalt, hwait⟩ := hrun
  exact if_pos ⟨hrefuse, hzero, hhalt, hwait⟩

/-- The check lets a waiting engine through, whatever its PC (log 7). -/
theorem pcZeroCheck_waiting (s : State) (hwait : s.waiting = true) : pcZeroCheck s = .next s :=
  if_neg fun ⟨_, _, _, hnot⟩ => absurd (hwait.symm.trans hnot) nofun

/-! ## The step in its run states -/

/-- The step of a running engine whose instruction completes is the check on the state it leaves. -/
theorem step_running_of_next {s t : State} (hrun : Running s)
    (h : exec (decodeWord (s.memRead s.pc)) s.fetch = .next t) : step s = pcZeroCheck t := by
  obtain ⟨hhalt, hwait⟩ := hrun
  rw [step_running s hhalt hwait, h, endStep]

/-- The step of a waiting engine is the check on the state that the input service leaves. -/
theorem step_waiting_of_next {s t : State} (hhalt : s.halted = false) (hwait : s.waiting = true)
    (h : trapIn (s.setWaiting false) = .next t) : step s = pcZeroCheck t := by
  rw [step_waiting s hhalt hwait, h, endStep]

/-- An engine that waits with nothing delivered stays as it is (60_exceptions.md R162). -/
theorem step_of_waiting_inputPending (s : State) (hhalt : s.halted = false) (hwait : s.waiting = true)
    (hpending : InputPending s) : step s = .next s := by
  have hsame : (s.setWaiting false).setWaiting true = s := by rw [State.setWaiting, State.setWaiting, ← hwait]
  have hin := trapIn_of_inputPending (s.setWaiting false) hpending
  rw [hsame] at hin
  rw [step_waiting_of_next hhalt hwait hin, pcZeroCheck_waiting s hwait]

/-- A state that a step leaves as it is, any number of steps leaves as it is. -/
theorem run_of_step_self {s : State} (h : step s = .next s) (n : Nat) : Sys2Proof.core.run n s = .next s := by
  induction n with
  | zero => rfl
  | succ n ih => exact (run_succ_eq_next Sys2Proof.core n s s).2 ⟨s, h, ih⟩

/-! ## The end of a wait -/

/-- A byte that is delivered before the end of the input is appended to it (43_trap.md R137). -/
theorem State.deliver_of_open (s : State) (b : Byte) (h : s.inputClosed = false) :
    s.deliver b = { s with input := s.input ++ [b] } := if_neg (by simp [h])

/-- A delivered byte ends the wait: the step is the check on the state in which R0 has taken the byte. -/
theorem step_of_waiting_deliver (s : State) (b : Byte) (hhalt : s.halted = false) (hwait : s.waiting = true)
    (hpending : InputPending s) (hall : s.consumed = s.input.length) :
    step (s.deliver b) =
      pcZeroCheck (({ s with input := s.input ++ [b] }.setWaiting false).consumeByte.writeReg 0 (zext8 b)) := by
  obtain ⟨hend, -, hclosed⟩ := hpending
  rw [s.deliver_of_open b hclosed]
  refine step_waiting_of_next hhalt hwait (trapIn_of_byteReady _ b ⟨hend, ?_⟩)
  change (s.input ++ [b])[s.consumed]? = some b
  rw [hall, List.getElem?_concat_length]

/-- The end of input ends the wait: the step is the check on the state in which R0 has taken the sentinel. -/
theorem step_of_waiting_endInput (s : State) (hhalt : s.halted = false) (hwait : s.waiting = true)
    (hpending : InputPending s) :
    step s.endInput = pcZeroCheck ((s.endInput.setWaiting false).reachEnd.writeReg 0 s.cfg.eofSentinel) := by
  obtain ⟨hend, hnone, -⟩ := hpending
  exact step_waiting_of_next hhalt hwait (trapIn_of_lastByteConsumed _ hend hnone rfl)

/-! ## Which step halts, and which is refused -/

/-- No instruction but TRAP 0x20 and TRAP 0x25 changes the run state or the input position (10_state.md R30, R32). -/
theorem exec_keeps_runState (i : Instr) (s t : State) (hin : i ≠ .trap 0x20) (hhalt : i ≠ .trap 0x25)
    (h : exec i s = .next t) :
    t.halted = s.halted ∧ t.waiting = s.waiting ∧ t.consumed = s.consumed ∧ t.endReached = s.endReached := by
  cases execForm i with
  | result x value hexec _ _ _ _ _ => cases (hexec s).symm.trans h; exact ⟨rfl, rfl, rfl, rfl⟩
  | store x addr hexec _ _ _ _ _ _ => cases (hexec s).symm.trans h; exact ⟨rfl, rfl, rfl, rfl⟩
  | transfer hexec _ _ _ _ => cases (hexec s).symm.trans h; exact ⟨rfl, rfl, rfl, rfl⟩
  | link off9 hi => subst hi; cases h; exact ⟨rfl, rfl, rfl, rfl⟩
  | input hi => exact absurd hi hin
  | output hi => subst hi; cases h; exact ⟨rfl, rfl, rfl, rfl⟩
  | halt hi => exact absurd hi hhalt
  | reserved r hexec => exact absurd ((hexec s).symm.trans h) nofun

/-- No instruction but TRAP 0x25 changes the run latch (R30). -/
theorem exec_keeps_halted (i : Instr) (s t : State) (hi : i ≠ .trap 0x25) (h : exec i s = .next t) :
    t.halted = s.halted := by
  by_cases hin : i = .trap 0x20
  · subst hin
    obtain ⟨-, -, -, hhalt⟩ := trapIn_frame s t h
    exact hhalt
  · obtain ⟨hhalt, -⟩ := exec_keeps_runState i s t hin hi h
    exact hhalt

/-- No instruction but TRAP 0x20 moves the wait or the input position (R32; 60_exceptions.md R162). -/
theorem exec_keeps_position (i : Instr) (s t : State) (hi : i ≠ .trap 0x20) (h : exec i s = .next t) :
    t.waiting = s.waiting ∧ t.consumed = s.consumed ∧ t.endReached = s.endReached := by
  by_cases hhalt : i = .trap 0x25
  · subst hhalt; cases h; exact ⟨rfl, rfl, rfl⟩
  · obtain ⟨-, hposition⟩ := exec_keeps_runState i s t hi hhalt h
    exact hposition

/-- An engine that is not halted is halted by TRAP 0x25 and by no other instruction (R30). -/
theorem exec_halted_iff (i : Instr) (s t : State) (hs : s.halted = false) (h : exec i s = .next t) :
    t.halted = true ↔ i = .trap 0x25 := by
  by_cases hi : i = .trap 0x25
  · subst hi; cases h; exact ⟨fun _ => rfl, fun _ => rfl⟩
  · rw [exec_keeps_halted i s t hi h, hs]
    exact ⟨nofun, fun he => absurd he hi⟩

/-- The defined instructions are those of no reserved opcode value (30_encoding.md R72). -/
theorem Instr.wellFormed_iff_opcode (i : Instr) : i.wellFormed = true ↔ ¬ (i.opcode = 8 ∨ i.opcode = 13) := by
  rw [Instr.opcode_eq_8_iff, Instr.opcode_eq_13_iff]
  cases i <;> simp [Instr.wellFormed]

/-- An instruction completes exactly when its opcode is not reserved (R73). -/
theorem exec_completes_iff (i : Instr) (s : State) : (∃ t, exec i s = .next t) ↔ ¬ (i.opcode = 8 ∨ i.opcode = 13) := by
  rw [← Instr.wellFormed_iff_opcode]
  refine ⟨fun ⟨t, ht⟩ => ?_, exec_next_of_wellFormed s i⟩
  cases i with
  | reserved8 | reserved13 => cases ht
  | _ => rfl

/-- The step of an engine that is not halted is an instruction, fetched or taken up again, and the check after it. -/
theorem step_eq_endStep_exec (s : State) (hhalt : s.halted = false) :
    ∃ i u, u.cfg = s.cfg ∧ step s = endStep (exec i u) := by
  cases hwait : s.waiting with
  | true => exact ⟨.trap 0x20, s.setWaiting false, rfl, step_waiting s hhalt hwait⟩
  | false => exact ⟨_, s.fetch, rfl, step_running s hhalt hwait⟩

/-- Under the ordinary policy, the step of a waiting engine answers a next state. -/
theorem step_waiting_completes (s : State) (hord : s.cfg.pcZeroPolicy = .ordinary) (hhalt : s.halted = false)
    (hwait : s.waiting = true) : ∃ t, step s = .next t := by
  obtain ⟨t, ht⟩ := exec_next_of_wellFormed (s.setWaiting false) (.trap 0x20) rfl
  obtain ⟨-, hcfg, -, -⟩ := exec_keeps _ _ t ht
  exact ⟨t, (step_waiting_of_next hhalt hwait ht).trans (pcZeroCheck_passes t (.inl (by rw [hcfg]; exact hord)))⟩

/-- Under the ordinary policy, a step answers a next state exactly when it fetches no reserved word (R73). -/
theorem step_completes_iff (s : State) (hord : s.cfg.pcZeroPolicy = .ordinary) :
    (∃ t, step s = .next t) ↔
      ¬ (Running s ∧ (opcField (s.memRead s.pc) = 8 ∨ opcField (s.memRead s.pc) = 13)) := by
  by_cases hrun : Running s
  · rw [stepIsFetchIncrementExecute s hrun hord, exec_completes_iff, decodeWord_opcode, and_iff_right hrun]
  · refine iff_of_true ?_ fun hboth => hrun hboth.1
    cases hhalt : s.halted with
    | true => exact ⟨s, step_halted s hhalt⟩
    | false => exact step_waiting_completes s hord hhalt (by simpa [Running, hhalt] using hrun)

/-- A step is refused only for a reserved opcode, or by the PC check when the policy asks for it. -/
theorem step_refused_cases (s : State) (r : Refusal) (h : step s = .refused r) :
    r = .reservedOpcode 8 ∨ r = .reservedOpcode 13 ∨ (r = .pcZero ∧ s.cfg.pcZeroPolicy = .refuse) := by
  cases hhalt : s.halted with
  | true => exact absurd ((step_halted s hhalt).symm.trans h) nofun
  | false =>
    obtain ⟨i, u, hcfg, hstep⟩ := step_eq_endStep_exec s hhalt
    rw [hstep, endStep_eq_refused] at h
    rcases h with hexec | ⟨hr, t, hexec, hrefuse, -, -, -⟩
    · rcases exec_refused_cases u i r hexec with ⟨-, hr⟩ | ⟨-, hr⟩
      · exact .inl hr
      · exact .inr (.inl hr)
    · obtain ⟨-, htcfg, -, -⟩ := exec_keeps u i t hexec
      exact .inr (.inr ⟨hr, by rw [← hcfg, ← htcfg]; exact hrefuse⟩)

/-! ## The obligations -/

/-- Settles O10: the three run states of the step and the check, as the model defines them. -/
theorem stepAroundExec : Obligations.StepAroundExec :=
  ⟨step_halted, step_waiting, fun s ⟨hhalt, hwait⟩ => step_running s hhalt hwait, fun _ => rfl, fun _ => rfl⟩

/-- Settles O30: the fetch reads the cell just stored, which a canonical memory returns. -/
theorem storeIsSeenByTheNextFetch : Obligations.StoreIsSeenByTheNextFetch := by
  rintro i s t a x hstore hwf h rfl ⟨hhalt, hwait⟩
  have hread : t.memRead t.pc = s.readReg x := by
    have ht : s.memWrite t.pc (s.readReg x) = t :=
      Host.Outcome.next.inj ((exec_of_store i s t.pc x hstore).symm.trans h)
    calc t.memRead t.pc = (s.memWrite t.pc (s.readReg x)).memRead t.pc := by rw [ht]
      _ = s.readReg x := s.memRead_memWrite_same hwf _ _
  rw [step_running t hhalt hwait, State.fetch, hread]

/-- Settles O31: the tables' entries of TRAP, and for memory the input service, which alone does more than one update. -/
theorem trapTouchesOnlyItsService : Obligations.TrapTouchesOnlyItsService := by
  refine ⟨decodeWord_eq_trap_of_mask, fun v s => ⟨?_, fun m => ?_, fun k u hk => ?_⟩⟩
  · obtain ⟨t, h⟩ := exec_next_of_wellFormed s (.trap v) rfl
    obtain ⟨hir, hcfg, -, -⟩ := exec_keeps s _ t h
    refine ⟨t, h, fun k hk => exec_keeps_regs _ s t h k fun hmem => hk (regsWritten_trap_subset v hmem),
      exec_keeps_mem _ s t rfl h, exec_keeps_cc _ s t rfl h, hir, hcfg,
      fun hv => exec_finalPc _ s t (fun he => hv (Instr.trap.inj he)) h, fun hv => ?_⟩
    obtain ⟨h0, h1, h2⟩ : v ≠ 0x20 ∧ v ≠ 0x21 ∧ v ≠ 0x25 := by simpa using hv
    cases (exec_trap_other s v h0 h1 h2).symm.trans h; rfl
  · rcases trap_vector_cases v with rfl | rfl | rfl | ⟨h0, h1, h2⟩
    · exact trapIn_ignores_mem s fun _ => m
    · rfl
    · rfl
    · rw [exec_trap_other s v h0 h1 h2]; exact exec_trap_other _ v h0 h1 h2
  · exact exec_writeReg_unaccessed _ s k u (fun h => hk (List.mem_singleton.1 (regsRead_trap_subset v h)))
      fun h => hk (List.mem_singleton.1 (regsWritten_trap_subset v h))

/-- Settles O32: with a byte ready the service is one `consumeByte` and one write to R0. -/
theorem trapInReadsAByte : Obligations.TrapInReadsAByte := by
  intro s b hb
  have h := trapIn_of_byteReady s b hb
  obtain ⟨hregs, -⟩ := trapIn_frame s _ h
  refine ⟨_, h, ?_, rfl, hregs, fun _ _ => rfl, rfl, rfl, ⟨rfl, rfl, rfl, rfl⟩, rfl, rfl, rfl, rfl⟩
  rw [State.readReg_writeReg_same, zext8_toNat]

/-- Settles O34: the wait is a fixed point of the step; a delivery makes the input service answer, and the PC check then
has the last word. -/
theorem waitEndsOnlyByDelivery : Obligations.WaitEndsOnlyByDelivery := by
  refine ⟨trapIn_of_inputPending, fun s hhalt hwait hpending =>
    ⟨run_of_step_self (step_of_waiting_inputPending s hhalt hwait hpending), fun hpc => ⟨fun hall b => ?_, ?_⟩,
      fun hrefuse hzero => ⟨fun hall b => ?_, ?_⟩⟩⟩
  · refine ⟨_, (step_of_waiting_deliver s b hhalt hwait hpending hall).trans (pcZeroCheck_passes _ hpc), rfl, ?_, rfl,
      fun i hi => ?_, rfl, rfl, rfl, hhalt⟩
    · rw [State.readReg_writeReg_same, zext8_toNat]
    · rw [State.readReg_writeReg, if_neg (List.ne_of_not_mem_cons hi)]; rfl
  · refine ⟨_, (step_of_waiting_endInput s hhalt hwait hpending).trans (pcZeroCheck_passes _ hpc), rfl, ?_,
      fun i hi => ?_, rfl, rfl, rfl, hhalt⟩
    · rw [State.readReg_writeReg_same]
    · rw [State.readReg_writeReg, if_neg (List.ne_of_not_mem_cons hi)]; rfl
  · exact (step_of_waiting_deliver s b hhalt hwait hpending hall).trans
      (pcZeroCheck_refuses _ hrefuse hzero ⟨hhalt, rfl⟩)
  · exact (step_of_waiting_endInput s hhalt hwait hpending).trans (pcZeroCheck_refuses _ hrefuse hzero ⟨hhalt, rfl⟩)

/-- Settles O36: the service is one `halt`, and a halted engine's step changes nothing. -/
theorem trapHaltStopsTheEngine : Obligations.TrapHaltStopsTheEngine :=
  fun s => ⟨s.halt, rfl, rfl, rfl, rfl, rfl, ⟨rfl, rfl, rfl, rfl, rfl⟩, rfl, rfl, rfl, step_halted s.halt rfl⟩

/-- Settles O38: a step that halts executes TRAP 0x25, which an engine that waits does not. -/
theorem haltedIsSetOnlyByTrap25 : Obligations.HaltedIsSetOnlyByTrap25 := by
  refine ⟨fun s n hhalt => run_of_step_self (step_halted s hhalt) n, fun s t hhalt h => ?_, fun l t h => ?_⟩
  · rcases step_cases s t h with ⟨hhalted, -⟩ | ⟨-, hwait, hin⟩ | ⟨-, hwait, hex⟩
    · exact absurd (hhalt.symm.trans hhalted) nofun
    · rw [exec_halted_iff (.trap 0x20) (s.setWaiting false) t hhalt hin, hwait]; simp
    · rw [exec_halted_iff _ s.fetch t hhalt hex, and_iff_right hwait]
  · obtain ⟨-, -, rfl⟩ := (boot_eq_next l t).1 h
    rfl

/-- Settles O39: an instruction completes exactly when its opcode is not reserved; the check adds the one other reason. -/
theorem stepStopsOnlyOnReservedWords : Obligations.StepStopsOnlyOnReservedWords :=
  fun s => ⟨step_completes_iff s, step_refused_cases s⟩

/-- Settles O40: the check follows every instruction, under the policy that no instruction changes. -/
theorem pcZeroPolicyDecidesAddressZero : Obligations.PcZeroPolicyDecidesAddressZero := by
  refine ⟨fun s t hrefuse hhalt h hzero => ?_, fun s hord h => ?_, fun s y hrun hjmp hreg => ?_⟩
  · obtain ⟨i, u, hcfg, hstep⟩ := step_eq_endStep_exec s hhalt
    obtain ⟨hexec, hcheck⟩ := (endStep_eq_next _ t).1 (hstep.symm.trans h)
    obtain ⟨-, htcfg, -, -⟩ := exec_keeps u i t hexec
    rw [htcfg, hcfg] at hcheck
    by_contra hrun
    obtain ⟨hnothalt, hnotwait⟩ := not_or.1 hrun
    exact hcheck ⟨hrefuse, hzero, by simpa using hnothalt, by simpa using hnotwait⟩
  · obtain h | h | ⟨-, hrefuse⟩ := step_refused_cases s _ h
    · cases h
    · cases h
    · exact absurd (hord.symm.trans hrefuse) nofun
  · have hstep : step s = pcZeroCheck (s.fetch.jump (s.readReg y)) :=
      step_running_of_next hrun (by rw [hjmp]; rfl)
    obtain ⟨hhalt, hwait⟩ := hrun
    exact ⟨fun hrefuse => hstep.trans (pcZeroCheck_refuses _ hrefuse hreg ⟨hhalt, hwait⟩),
      fun hord => ⟨_, hstep.trans (pcZeroCheck_passes _ (.inl hord)), hreg, hhalt⟩⟩

end Sys2Proof.Machine

/-! # Short programs, the input and the invariant: proofs of O16, O22, O46, O47, O48, O49, O50, O51, O53, O54 -/

namespace Sys2Proof.Machine

/-! ## A branch to itself -/

/-- The offset -1 leads from the incremented PC back to the instruction. -/
theorem State.fetch_relAddr_self (s : State) : s.fetch.relAddr 0x1FF = s.pc := by
  have hext : sext9 0x1FF = -1 := rfl
  rw [State.relAddr, State.fetch_pc, hext, add_neg_cancel_right]

/-- A taken branch to itself fetches its word and does nothing else (spec 40_control.md R90 corner (d)). -/
theorem step_takenSelfBranch (s : State) (x : CondBits) (hrun : Running s)
    (hbr : decodeWord (s.memRead s.pc) = .br x 0x1FF) (hcc : s.cc &&& x ≠ 0)
    (hpc : s.cfg.pcZeroPolicy = .ordinary ∨ s.pc ≠ 0) : step s = .next { s with ir := s.memRead s.pc } := by
  have hexec : exec (decodeWord (s.memRead s.pc)) s.fetch = .next { s with ir := s.memRead s.pc } := by
    rw [hbr, exec_br_taken s.fetch x _ hcc, s.fetch_relAddr_self]; rfl
  rw [step_running_of_next hrun hexec]
  exact pcZeroCheck_passes _ hpc

/-! ## What a run keeps -/

/-- The parameters and the delivered input of two states of a run (10_state.md R36). -/
def SameRun (s t : State) : Prop := t.cfg = s.cfg ∧ t.input = s.input ∧ t.inputClosed = s.inputClosed

/-- No step changes the parameters and the delivered input. -/
theorem step_keeps_sameRun (first s t : State) (hs : SameRun first s) (h : step s = .next t) : SameRun first t := by
  refine step_keeps (P := SameRun first) (fun _ hu => hu) (fun _ hu => hu) (fun i u v hu hexec => ?_) s t hs h
  obtain ⟨hcfg, hinput, hclosed⟩ := hu
  obtain ⟨-, hcfg', hinput', hclosed'⟩ := exec_keeps u i v hexec
  exact ⟨hcfg'.trans hcfg, hinput'.trans hinput, hclosed'.trans hclosed⟩

/-! ## The input position -/

/-- The input service consumes a byte only by returning it in R0 (43_trap.md R132). -/
theorem trapIn_consumed (s t : State) (h : trapIn s = .next t) :
    t.consumed = s.consumed ∨
      (t.consumed = s.consumed + 1 ∧ ∃ b, s.input[s.consumed]? = some b ∧ t.readReg 0 = zext8 b) := by
  rcases trapIn_cases s with ⟨b, -, hbyte, hin⟩ | ⟨-, hin⟩ | ⟨-, -, -, hin⟩ | ⟨-, -, -, hin⟩ <;> cases hin.symm.trans h
  · exact .inr ⟨rfl, b, hbyte, State.readReg_writeReg_same ..⟩
  all_goals exact .inl rfl

/-! ## No look-ahead -/

/-- The state with more input behind what is delivered. -/
def State.appendInput (s : State) (later : List Byte) : State := { s with input := s.input ++ later }

/-- What comes after the next byte has no influence on the input service (43_trap.md R137). -/
theorem trapIn_appendInput (s : State) (later : List Byte)
    (hnext : s.consumed < s.input.length ∨ s.endReached = true) :
    trapIn (s.appendInput later) = mapNext (·.appendInput later) (trapIn s) := by
  cases hend : s.endReached with
  | true => rw [trapIn_of_endReached s hend]; exact trapIn_of_endReached (s.appendInput later) hend
  | false =>
    have hlt : s.consumed < s.input.length := hnext.resolve_right (by simp [hend])
    have hbyte : s.input[s.consumed]? = some s.input[s.consumed] := List.getElem?_eq_getElem hlt
    rw [trapIn_of_byteReady s _ ⟨hend, hbyte⟩]
    exact trapIn_of_byteReady (s.appendInput later) _ ⟨hend, (List.getElem?_append_left hlt).trans hbyte⟩

/-- What comes after the byte that an instruction consumes has no influence on it; no instruction but TRAP 0x20 reads the
input. -/
theorem exec_appendInput (i : Instr) (s : State) (later : List Byte)
    (hnext : i = .trap 0x20 → s.consumed < s.input.length ∨ s.endReached = true) :
    exec i (s.appendInput later) = mapNext (·.appendInput later) (exec i s) := by
  cases i with
  | br x off9 =>
    by_cases hc : s.cc &&& x = 0
    · rw [exec_br_not_taken s x off9 hc]; exact exec_br_not_taken (s.appendInput later) x off9 hc
    · rw [exec_br_taken s x off9 hc]; exact exec_br_taken (s.appendInput later) x off9 hc
  | trap v =>
    rcases trap_vector_cases v with rfl | rfl | rfl | ⟨h0, h1, h2⟩
    · exact trapIn_appendInput s later (hnext rfl)
    · rfl
    · rfl
    · rw [exec_trap_other s v h0 h1 h2]; exact exec_trap_other _ v h0 h1 h2
  | _ => rfl

/-- The end of a step does not look at the input. -/
theorem endStep_appendInput (o : Host.Outcome State Fault Refusal) (later : List Byte) :
    endStep (mapNext (·.appendInput later) o) = mapNext (·.appendInput later) (endStep o) :=
  endStep_mapNext _ o fun _ => ⟨rfl, rfl, rfl, rfl⟩

/-- What comes after the byte that a step consumes has no influence on the step. -/
theorem step_appendInput (s : State) (later : List Byte)
    (hnext : InTrapIn s → s.consumed < s.input.length ∨ s.endReached = true) :
    step (s.appendInput later) = mapNext (·.appendInput later) (step s) := by
  cases hhalt : s.halted with
  | true => rw [step_halted s hhalt]; exact step_halted (s.appendInput later) hhalt
  | false =>
    cases hwait : s.waiting with
    | true =>
      have hin := trapIn_appendInput (s.setWaiting false) later (hnext ⟨hhalt, .inl hwait⟩)
      rw [step_waiting s hhalt hwait, ← endStep_appendInput, ← hin]
      exact step_waiting (s.appendInput later) hhalt hwait
    | false =>
      have hexec := exec_appendInput (decodeWord (s.memRead s.pc)) s.fetch later
        fun htrap => hnext ⟨hhalt, .inr htrap⟩
      rw [step_running s hhalt hwait, ← endStep_appendInput, ← hexec]
      exact step_running (s.appendInput later) hhalt hwait

/-! ## The invariant -/

/-- Every instruction keeps the memory in canonical form. -/
theorem exec_keeps_memWf (i : Instr) (s t : State) (hwf : s.mem.wf) (h : exec i s = .next t) : t.mem.wf := by
  cases hstore : store i s with
  | none => rw [exec_keeps_mem i s t hstore h]; exact hwf
  | some cell =>
    cases (exec_of_store i s cell.1 cell.2 hstore).symm.trans h
    exact s.memWrite_wf hwf _ _

/-- The end of a wait keeps the invariant. -/
theorem Inv.setWaiting_false {s : State} (hs : Inv s) : Inv (s.setWaiting false) := by
  obtain ⟨hwf, hle, hend, -, -⟩ := hs
  exact ⟨hwf, hle, hend, fun _ => rfl, nofun⟩

/-- The fetch of a running engine keeps the invariant. -/
theorem Inv.fetch {s : State} (hs : Inv s) (hwait : s.waiting = false) : Inv s.fetch := by
  obtain ⟨hwf, hle, hend, hone, -⟩ := hs
  exact ⟨hwf, hle, hend, hone, fun hw => absurd (hwait.symm.trans hw) nofun⟩

/-- The input service keeps the invariant: it consumes a byte that is there, reaches the end after the last one, and
waits as the instruction it is. -/
theorem trapIn_keeps_inv (s t : State) (hs : Inv s) (hhalt : s.halted = false) (htrap : decodeWord s.ir = .trap 0x20)
    (h : trapIn s = .next t) : Inv t := by
  obtain ⟨hwf, hle, hend, hone, hwaits⟩ := hs
  rcases trapIn_cases s with ⟨b, hnot, hbyte, hin⟩ | ⟨-, hin⟩ | ⟨-, hnone, hclosed, hin⟩ | ⟨-, -, -, hin⟩ <;>
    cases hin.symm.trans h
  · obtain ⟨hlt, -⟩ := List.getElem?_eq_some_iff.1 hbyte
    exact ⟨hwf, hlt, fun hreached => absurd (hnot.symm.trans hreached) nofun, hone, hwaits⟩
  · exact ⟨hwf, hle, hend, hone, hwaits⟩
  · have hall : s.consumed = s.input.length := Nat.le_antisymm hle (List.getElem?_eq_none_iff.1 hnone)
    exact ⟨hwf, hle, fun _ => ⟨hclosed, hall⟩, hone, hwaits⟩
  · exact ⟨hwf, hle, hend, fun hhalted => absurd (hhalt.symm.trans hhalted) nofun, fun _ => htrap⟩

/-- Every instruction but TRAP 0x20 keeps the invariant of a running engine: it leaves all that the invariant speaks of
alone, but for the memory and the run latch. -/
theorem exec_keeps_inv (i : Instr) (s t : State) (hs : Inv s) (hwait : s.waiting = false) (hi : i ≠ .trap 0x20)
    (h : exec i s = .next t) : Inv t := by
  obtain ⟨hwf, hle, hend, -, -⟩ := hs
  obtain ⟨-, -, hinput, hclosed⟩ := exec_keeps s i t h
  obtain ⟨hwait', hconsumed, hreached⟩ := exec_keeps_position i s t hi h
  have hnot : t.waiting = false := hwait'.trans hwait
  refine ⟨exec_keeps_memWf i s t hwf h, ?_, ?_, fun _ => hnot, fun hw => absurd (hnot.symm.trans hw) nofun⟩
  · rw [hconsumed, hinput]; exact hle
  · rw [hreached, hclosed, hconsumed, hinput]; exact hend

/-! ## The launch -/

/-- A trailing single byte is no word (70_reset_and_hazards.md R173 (a)). -/
theorem imageWords_append_single : ∀ (bytes : List Byte) (b : Byte), bytes.length % 2 = 0 →
    imageWords (bytes ++ [b]) = imageWords bytes
  | [], _, _ => rfl
  | [_], _, h => absurd h (by simp)
  | hi :: lo :: rest, b, h => by
    have hrest : rest.length % 2 = 0 := by simp only [List.length_cons] at h; omega
    exact congrArg (wordOfBytes hi lo :: ·) (imageWords_append_single rest b hrest)

/-! ## The obligations -/

/-- Settles O16, by induction on the number of steps: the step leaves a state that meets the same hypotheses. -/
theorem takenSelfBranchNeverEnds : Obligations.TakenSelfBranchNeverEnds := by
  intro s x n
  induction n generalizing s with
  | zero => exact fun ⟨hhalt, _⟩ _ _ _ => ⟨s, rfl, rfl, hhalt, fun _ _ => rfl, rfl⟩
  | succ n ih =>
    intro hrun hbr hcc hpc
    obtain ⟨t, hrest, hsame⟩ := ih { s with ir := s.memRead s.pc } hrun hbr hcc hpc
    exact ⟨t, (run_succ_eq_next Sys2Proof.core n s t).2 ⟨_, step_takenSelfBranch s x hrun hbr hcc hpc, hrest⟩, hsame⟩

/-- Settles O22: the complement plus 1 is the negative modulo 65536 (41_operate.md R106 (f)). -/
theorem subtractionByComplement : Obligations.SubtractionByComplement := by
  refine fun s d a b hab => ⟨_, _, _, exec_not s b b, exec_addImm _ b b 1, exec_addReg _ d a b, ?_⟩
  have hone : (sext5 1).toNat = 1 := rfl
  rw [State.readReg_writeResult_same, State.readReg_writeResult_same, State.readReg_writeResult_same,
    State.readReg_writeResult, if_neg hab, State.readReg_writeResult, if_neg hab, BitVec.toNat_add, BitVec.toNat_add,
    BitVec.toNat_not, hone]
  omega

/-- Settles O46: the input service alone reads the input, one byte of it. -/
theorem inputIsConsumedOneByteAtATime : Obligations.InputIsConsumedOneByteAtATime := by
  refine ⟨fun s t h => ?_, fun s t h => ?_, step_appendInput, fun s hrun htrap hpending => ?_⟩
  · obtain ⟨-, hsame⟩ := step_keeps_sameRun s s t ⟨rfl, rfl, rfl⟩ h
    exact hsame
  · rcases step_cases s t h with ⟨-, rfl⟩ | ⟨hhalt, hwait, hin⟩ | ⟨hhalt, -, hex⟩
    · exact .inl rfl
    · exact (trapIn_consumed _ t hin).imp_right fun hbyte => ⟨⟨hhalt, .inl hwait⟩, hbyte⟩
    · by_cases htrap : decodeWord (s.memRead s.pc) = .trap 0x20
      · rw [htrap] at hex
        exact (trapIn_consumed s.fetch t hex).imp_right fun hbyte => ⟨⟨hhalt, .inr htrap⟩, hbyte⟩
      · obtain ⟨-, hconsumed, -⟩ := exec_keeps_position _ s.fetch t htrap hex
        exact .inl hconsumed
  · have hexec : exec (decodeWord (s.memRead s.pc)) s.fetch = .next (s.fetch.setWaiting true) := by
      rw [htrap]; exact trapIn_of_inputPending s.fetch hpending
    exact (step_running_of_next hrun hexec).trans (pcZeroCheck_waiting _ rfl)

/-- Settles O47: every step keeps the parameters and the input, so every run does. -/
theorem runParametersNeverChange : Obligations.RunParametersNeverChange :=
  fun n s t h => run_keeps (step_keeps_sameRun s) n s t ⟨rfl, rfl, rfl⟩ h

/-- Settles O48, run state by run state; in a running engine TRAP 0x20 is the one instruction that the invariant of the
console and of the wait turns on. -/
theorem invariantKeptByEveryStep : Obligations.InvariantKeptByEveryStep := by
  intro s t hs h
  rcases step_cases s t h with ⟨-, rfl⟩ | ⟨hhalt, hwait, hin⟩ | ⟨hhalt, hwait, hex⟩
  · exact hs
  · exact trapIn_keeps_inv _ t hs.setWaiting_false hhalt (hs.waits_in_trap hwait) hin
  · by_cases htrap : decodeWord (s.memRead s.pc) = .trap 0x20
    · rw [htrap] at hex
      exact trapIn_keeps_inv s.fetch t (hs.fetch hwait) hhalt htrap hex
    · exact exec_keeps_inv _ s.fetch t (hs.fetch hwait) hwait htrap hex

/-- Settles O50: the load keeps the canonical form, as the image stays below 65536; nothing is consumed yet. -/
theorem invariantHoldsAfterEveryLaunch : Obligations.InvariantHoldsAfterEveryLaunch := by
  intro l t hwf h
  obtain ⟨-, hfits, rfl⟩ := (boot_eq_next l t).1 h
  have hlen := imageWords_length l.image
  have horigin := l.cfg.origin.isLt
  exact ⟨loadWords_wf _ _ _ hwf (by omega), Nat.zero_le _, nofun, nofun, nofun⟩

/-- Settles O51: a delivery adds a byte at the end only while the input is open, and its end is no step of the engine. -/
theorem invariantKeptByTheEnvironment : Obligations.InvariantKeptByTheEnvironment := by
  rintro s b ⟨hwf, hle, hend, hone, hwaits⟩
  refine ⟨?_, hwf, hle, fun hreached => ?_, hone, hwaits⟩
  · cases hclosed : s.inputClosed with
    | true => rw [State.deliver, if_pos hclosed]; exact ⟨hwf, hle, hend, hone, hwaits⟩
    | false =>
      rw [s.deliver_of_open b hclosed]
      refine ⟨hwf, ?_, fun hreached => ?_, hone, hwaits⟩
      · exact Nat.le_trans hle (List.length_append ▸ Nat.le_add_right _ _)
      · obtain ⟨hopen, -⟩ := hend hreached
        exact absurd (hclosed.symm.trans hopen) nofun
  · obtain ⟨-, hall⟩ := hend hreached
    exact ⟨rfl, hall⟩

/-- Settles O53: the launch looks at the image through its words only. -/
theorem launchCorners : Obligations.LaunchCorners := by
  refine ⟨fun l b heven => ?_, fun l horigin hlong => ?_, fun l hzero => if_pos hzero⟩
  · rw [boot, boot, imageWords_append_single l.image b heven]
  · rw [boot, if_neg horigin, if_pos (by rw [imageWords_length]; exact hlong)]

/-- Settles O54: an admissible launch answers `Launch.start`, which is here the reset state field by field. -/
theorem resetIsTheLaunchOfNothing : Obligations.ResetIsTheLaunchOfNothing :=
  (boot_eq_next _ _).2 ⟨by decide, by decide, rfl⟩

/-- Settles O49: the reset state is the state of a launch, from the memory that lists no cell. -/
theorem invariantHoldsAtReset : Obligations.InvariantHoldsAtReset :=
  invariantHoldsAfterEveryLaunch _ _ ⟨List.Pairwise.nil, List.forall_mem_nil _⟩ resetIsTheLaunchOfNothing

end Sys2Proof.Machine
